-- ==== Sys2Proof/Word.lean ====
section
/-! DEFINITION. The words of the engine (00_scope.md R7, R8, R10): every value is an unsigned bit vector. -/

namespace Sys2Proof

/-- A command word or a response word, 32 bits (R8, R70, R76). Bit 0 is the least significant bit (R10). -/
abbrev Word := BitVec 32

/-- An entry of `S` or `KEY`, an index, a key byte or a data byte (R7, parameter `W`). -/
abbrev Byte := BitVec 8

/-- The result data field `RDATA` of a response (R76). -/
abbrev Half := BitVec 16

/-- The key length `KLEN`, 9 bits, values 0..256 (R8, R23). -/
abbrev Count := BitVec 9

end Sys2Proof
end

