-- ==== Sys2Proof/Config.lean ====
section
/-! DEFINITION. What is fixed for the machine: the parameters of 00_scope.md R7 and R8. The parameters R8 calls OPEN
are opaque constants: nothing can be proved of their value, and no rule depends on them. -/

namespace Sys2Proof

/-- Byte order of a byte-wide transport that carries command or response words (R8 `WORD_BYTE_ORDER`, R54). -/
inductive ByteOrder where
  | little
  | big
  deriving DecidableEq, Repr

namespace Config

/-- `N_S`, entries of the permutation state (R7). -/
abbrev entries : Nat := 256

/-- KSA iterations per key schedule (R7). -/
abbrev ksaIterations : Nat := 256

/-- `KEYBUF_DEPTH`, key bytes stored (R8, decision D8). -/
abbrev keyBufferDepth : Nat := 256

/-- How far `KSA_LATENCY` exceeds its lower bound of one cycle: OPEN (R8, U4). -/
opaque ksaLatencyAboveOne : Nat

/-- How far `CMD_LATENCY` exceeds its lower bound of one cycle: OPEN (R8, U4). -/
opaque cmdLatencyAboveOne : Nat

/-- How many engines a platform holds beyond the first: OPEN (R8, R171, U5). -/
opaque enginesAboveOne : Nat

/-- `WORD_BYTE_ORDER`: true for little, false for big: OPEN (R8, R54, U6). -/
opaque wordOrderIsLittle : Bool

/-- `KSA_LATENCY`, clock cycles from accepting KSA to its response, a natural number of at least 1 (R8). No rule reads it (R190). -/
def ksaLatency : Nat := ksaLatencyAboveOne + 1

/-- `CMD_LATENCY`, clock cycles from accepting another command to its response, at least 1 (R8). No rule reads it (R190). -/
def cmdLatency : Nat := cmdLatencyAboveOne + 1

/-- `NUM_ENGINES`, instances on one platform, at least 1 (R8, R171). -/
def numEngines : Nat := enginesAboveOne + 1

/-- `WORD_BYTE_ORDER` of the platform's transport (R8, R54). -/
def wordByteOrder : ByteOrder := if wordOrderIsLittle then .little else .big

end Config
end Sys2Proof
end

