-- ==== Sys2Proof/Syntax.lean ====
section
/-! DEFINITION. The commands of the opcode map (30_encoding.md R74), the reasons a word is illegal (R79) and the completion
codes (R77). -/

namespace Sys2Proof

/-- One constructor per row of spec/opcode_table.json (R74). The one operand form is the immediate byte (R75). -/
inductive Instr where
  /-- do nothing (R140) -/
  | nop
  /-- clear the key buffer (R100) -/
  | kclr
  /-- append the key byte `kb` (R102) -/
  | kpush (kb : Byte)
  /-- start the key schedule (R105) -/
  | ksa
  /-- one keystream byte, combined with the data byte `d` (R120) -/
  | prga (d : Byte)
  /-- read the S-box entry `a` (R141) -/
  | srd (a : Byte)
  /-- read the register selected by `sel`, legal for 0..3 (R142, R73) -/
  | rdr (sel : Byte)
  /-- soft reset (R143) -/
  | srst
  deriving DecidableEq, Repr

/-- Why a command word is illegal: the four items of R79. -/
inductive Reject where
  /-- item 1: `OP ≥ 0x8` -/
  | reservedOpcode
  /-- item 2: `RSVD ≠ 0` -/
  | reservedField
  /-- item 3: a nonzero `IMM8` on NOP, KCLR, KSA or SRST -/
  | unusedOperand
  /-- item 4: `OP = RDR` and `IMM8 ≥ 0x04` -/
  | selector
  deriving DecidableEq, Repr

/-- What a command word decodes to (R81: exactly one command, or illegal). -/
inductive Decoded where
  | command (i : Instr)
  | illegal (r : Reject)
  deriving DecidableEq, Repr

/-- The completion codes of R77. Codes 0x4 to 0xF are reserved and have no constructor (R164). -/
inductive Code where
  | ok
  | invalidKey
  | notReady
  | illegal
  deriving DecidableEq, Repr

end Sys2Proof
end

