-- ==== Sys2Proof/WellFormed.lean ====
section
/-! DEFINITION. Which operands a command may carry (30_encoding.md R73). -/

namespace Sys2Proof

/-- R73: KPUSH, PRGA and SRD take any byte; RDR takes the selectors 0x00..0x03 (R35). -/
def Instr.wellFormed : Instr → Bool
  | .nop => true
  | .kclr => true
  | .kpush _ => true
  | .ksa => true
  | .prga _ => true
  | .srd _ => true
  | .rdr sel => sel < 4#8
  | .srst => true

end Sys2Proof
end

