-- ==== Sys2Proof/Decode.lean ====
section
/-! DEFINITION. Decoding of command words, total and rejecting by name (30_encoding.md R70 to R81), the encoder (R83),
the rows of the opcode map (R74) and the byte-wide transport of whole words (20_memory.md R54). -/

namespace Sys2Proof

/-- `OP = cmd[31:28]` (R70, R71). -/
def opField (w : Word) : BitVec 4 := w.extractLsb' 28 4

/-- `RSVD = cmd[27:8]` (R70, R72). -/
def rsvdField (w : Word) : BitVec 20 := w.extractLsb' 8 20

/-- `IMM8 = cmd[7:0]` (R70, R73). -/
def imm8Field (w : Word) : Byte := w.extractLsb' 0 8

/-- R80 for a command that takes no operand: legal only with `IMM8 = 0` (R79 item 3). -/
def decodeNoOperand (i : Instr) (imm : Byte) : Decoded :=
  if imm = 0 then .command i else .illegal .unusedOperand

/-- R80: the command a word stands for, or why it is illegal. Opcodes 0x8 to 0xF are the last branch. -/
def decode (w : Word) : Decoded :=
  if 8#4 ≤ opField w then .illegal .reservedOpcode
  else if rsvdField w ≠ 0 then .illegal .reservedField
  else if opField w = 0x0#4 then decodeNoOperand .nop (imm8Field w)
  else if opField w = 0x1#4 then decodeNoOperand .kclr (imm8Field w)
  else if opField w = 0x2#4 then .command (.kpush (imm8Field w))
  else if opField w = 0x3#4 then decodeNoOperand .ksa (imm8Field w)
  else if opField w = 0x4#4 then .command (.prga (imm8Field w))
  else if opField w = 0x5#4 then .command (.srd (imm8Field w))
  else if opField w = 0x6#4 then
    if imm8Field w < 4#8 then .command (.rdr (imm8Field w)) else .illegal .selector
  else decodeNoOperand .srst (imm8Field w)

/-- The opcode `OP` of a command (R74). -/
def Instr.opcode : Instr → BitVec 4
  | .nop => 0x0
  | .kclr => 0x1
  | .kpush _ => 0x2
  | .ksa => 0x3
  | .prga _ => 0x4
  | .srd _ => 0x5
  | .rdr _ => 0x6
  | .srst => 0x7

/-- The operand byte `IMM8` of a command, 0x00 where it is unused (R73). -/
def Instr.imm8 : Instr → Byte
  | .nop => 0
  | .kclr => 0
  | .kpush kb => kb
  | .ksa => 0
  | .prga d => d
  | .srd a => a
  | .rdr sel => sel
  | .srst => 0

/-- The word of a command: format C with `RSVD = 0` (R70, R72, R83). -/
def encode (i : Instr) : Word := i.opcode ++ 0#20 ++ i.imm8

/-- `match` of a command's row in the opcode map (R74). -/
def Instr.rowMatch : Instr → Word
  | .nop => 0x00000000
  | .kclr => 0x10000000
  | .kpush _ => 0x20000000
  | .ksa => 0x30000000
  | .prga _ => 0x40000000
  | .srd _ => 0x50000000
  | .rdr _ => 0x60000000
  | .srst => 0x70000000

/-- `mask` of a command's row in the opcode map (R74). -/
def Instr.rowMask : Instr → Word
  | .nop => 0xFFFFFFFF
  | .kclr => 0xFFFFFFFF
  | .kpush _ => 0xFFFFFF00
  | .ksa => 0xFFFFFFFF
  | .prga _ => 0xFFFFFF00
  | .srd _ => 0xFFFFFF00
  | .rdr _ => 0xFFFFFFFC
  | .srst => 0xFFFFFFFF

/-- R74: "A word `w` selects a row when `(w AND mask) = match`". -/
def Instr.selectedBy (i : Instr) (w : Word) : Bool := w &&& i.rowMask == i.rowMatch

/-- The bytes of a word as a byte-wide transport carries them (R54; the order is the transport's parameter). -/
def wordToBytes (o : ByteOrder) (w : Word) : List Byte :=
  match o with
  | .little => [w.extractLsb' 0 8, w.extractLsb' 8 8, w.extractLsb' 16 8, w.extractLsb' 24 8]
  | .big => [w.extractLsb' 24 8, w.extractLsb' 16 8, w.extractLsb' 8 8, w.extractLsb' 0 8]

/-- The word that a transport's next four bytes carry, and the bytes after it; none where fewer than four are left:
words move only whole (R54, R56). -/
def wordOfBytes (o : ByteOrder) : List Byte → Option (Word × List Byte)
  | b0 :: b1 :: b2 :: b3 :: rest =>
    match o with
    | .little => some (b3 ++ b2 ++ b1 ++ b0, rest)
    | .big => some (b0 ++ b1 ++ b2 ++ b3, rest)
  | _ => none

/-- What a transport's next word decodes to, and the bytes after it. -/
def decodeBytes (o : ByteOrder) (bs : List Byte) : Option (Decoded × List Byte) :=
  (wordOfBytes o bs).map fun p => (decode p.1, p.2)

/-- The first word of an instruction whose bits are `w`, of which `nbits` are given and the rest are zero. A command is
exactly one 32-bit word, transferred whole with bit 0 least significant (R70, R54), so no byte order enters. -/
def tableWord (nbits w : Nat) : Word := BitVec.ofNat 32 (w % 2 ^ nbits)

/-- The instruction the decoder reads from an instruction of the opcode table whose bits are `w`. -/
def decodeTableWord (nbits w : Nat) : Option Instr :=
  match decode (tableWord nbits w) with
  | .command i => some i
  | .illegal _ => none

end Sys2Proof
end

