-- ==== Sys2Proof/Machine/State.lean ====
section
/-! DEFINITION. Everything the spec gives the machine (10_state.md R20), and the host agent beside it (00_scope.md R9,
70_reset_and_hazards.md R192). -/

namespace Sys2Proof.Machine

/-- Whether a key schedule is in progress (R26). -/
inductive Phase where
  | idle
  | ksa
  deriving DecidableEq, Repr

/-- The contents of a byte space, as (cell index, byte) pairs in one canonical form: indices strictly rising and below 256.
An unlisted cell holds no value (R33; log entry 1). -/
abbrev Memory := List Host.Cell

/-- The input ports at a clock edge (R28). `clk` is the step itself. -/
structure Pins where
  /-- synchronous reset, active high -/
  rst : Bool := false
  /-- the host offers a command word -/
  cmdValid : Bool := false
  /-- the command word -/
  cmdData : Word := 0
  /-- the host consumes the response -/
  rspReady : Bool := false
  deriving DecidableEq, Repr

/-- One move of the host (R9, R190: issue, consume and reset are steps of their own). DESIGN CHOICE, log entry 2. -/
inductive Move where
  /-- offer the word `w` and hold it until it is accepted (R29) -/
  | issue (w : Word)
  /-- be ready for a response and hold until one is delivered (R30) -/
  | consume
  /-- one clock edge with exactly these pins, nothing held; `engineMoves` says whether the engine takes its enabled KSA
  iteration at it (the model is untimed, R190) -/
  | edge (pins : Pins) (engineMoves : Bool)
  deriving DecidableEq, Repr

/-- The host's reset step (R181): an edge with `rst = 1`. -/
abbrev Move.reset : Move := .edge (pins := { rst := true }) (engineMoves := false)

/-- An edge at which the host does nothing and the engine takes its step. -/
abbrev Move.engine : Move := .edge (pins := {}) (engineMoves := true)

/-- The engine's architectural state (R20), under the spec's own names, and the host agent's two lists. -/
structure State where
  /-- the permutation state, 256 cells of 8 bits (R21) -/
  S : Memory
  /-- the key bytes loaded since the last KCLR or reset, 256 cells of 8 bits (R23) -/
  KEY : Memory
  /-- number of key bytes held (R23) -/
  KLEN : Count
  /-- PRGA index `i` (R24) -/
  I : Byte
  /-- KSA accumulator `j`, then PRGA index `j` (R24) -/
  J : Byte
  /-- `S` holds a permutation from a completed KSA (R25) -/
  SVALID : Bool
  /-- whether a key schedule is in progress (R26) -/
  PHASE : Phase
  /-- the KSA iteration to perform next (R26) -/
  KCTR : Byte
  /-- the response of the last accepted command, not yet consumed (R27) -/
  RESP : Option Word
  /-- the host's coming moves, the next first: the model's own field (R9; log entry 2) -/
  agenda : List Move
  /-- the response words the host received, the first first: the model's own field (R192; log entry 3) -/
  received : List Word
  deriving DecidableEq, Repr

/-- Why the machine stops. R33 and R173 allow model-level faults only for reads of a cell with no value; no constructor is
reached from a state that meets the invariants of R32. -/
inductive Fault where
  /-- a read of a cell of `S` that holds no value (R33): raised by KSA iterations, PRGA and SRD. Safe. -/
  | unwrittenS (a : Byte)
  /-- a read of a cell of `KEY` that holds no value (R33): raised by KSA iterations. Safe. -/
  | unwrittenKey (a : Byte)
  /-- `i mod KLEN` with `KLEN = 0`, which R10 does not define: raised by KSA iterations. Safe. -/
  | emptyKeyModulo
  /-- delivery of a response word whose code is reserved, 0x4 to 0xF (R77, U8): raised when the host consumes. Safe. -/
  | reservedCode (w : Word)
  deriving DecidableEq, Repr

/-- Why a step has no meaning. -/
inductive Refusal where
  /-- an instruction rejected by name in exec's arm; none is. Safe. -/
  | notModelled (mnemonic : String)
  deriving DecidableEq, Repr

/-- What a step answers. -/
abbrev Result := Host.Outcome State Fault Refusal

/-- The reset values of R34. `S` and `KEY` list no cell: unspecified and unreadable (log entry 1). No command is offered
(log entries 2, 3). -/
def State.reset : State where
  S := []
  KEY := []
  KLEN := 0
  I := 0
  J := 0
  SVALID := false
  PHASE := .idle
  KCTR := 0
  RESP := none
  agenda := []
  received := []

end Sys2Proof.Machine
end

