-- ==== Sys2Proof/Machine/Ops.lean ====
section
/-! DEFINITION. The named operations over the two byte memories, the response register and the whole state (00_scope.md R11):
reads, writes, swap, `respond`, `raise` and reset. -/

namespace Sys2Proof.Machine

/-- The byte a memory lists at a cell, none where it lists none. -/
def Memory.get : Memory → Nat → Option Byte
  | [], _ => none
  | (b, v) :: m, a => if a = b then some v else Memory.get m a

/-- The memory with the byte `v` at cell `a`, in the canonical form. -/
def Memory.put : Memory → Nat → Byte → Memory
  | [], a, v => [(a, v)]
  | (b, u) :: m, a, v =>
    if a < b then (a, v) :: (b, u) :: m
    else if a = b then (a, v) :: m
    else (b, u) :: Memory.put m a v

/-- The cells listed are strictly rising, start at `lo` or above, and lie in the space 0..255. -/
def Memory.risingFrom : Nat → Memory → Bool
  | _, [] => true
  | lo, (a, _) :: m => decide (lo ≤ a) && decide (a < Config.entries) && Memory.risingFrom (a + 1) m

/-- The canonical form: indices strictly rising, each an existing cell (R50, R51, R56). -/
def Memory.wf (m : Memory) : Bool := Memory.risingFrom 0 m

/-- `MemRead(space, a, 1)` without its effect on the run (R11): the value of the cell, none where it has none. -/
def Memory.read (m : Memory) (a : Byte) : Option Byte := Memory.get m a.toNat

/-- `MemWrite(space, a, 1, v)` (R11). -/
def Memory.write (m : Memory) (a v : Byte) : Memory := Memory.put m a.toNat v

/-- The identity table: cell `a` holds `a`, for `a = 0..255` (R103 step 1, R105). -/
def Memory.identity : Memory := (List.range Config.entries).map fun a => (a, BitVec.ofNat 8 a)

/-- Read `S[a]` and go on with its value; a cell with no value faults (R33). -/
def fetchS (s : State) (a : Byte) (k : Byte → Result) : Result :=
  match Memory.read s.S a with
  | some v => k v
  | none => .fault (.unwrittenS a)

/-- Read `KEY[a]` and go on with its value; a cell with no value faults (R33). -/
def fetchKey (s : State) (a : Byte) (k : Byte → Result) : Result :=
  match Memory.read s.KEY a with
  | some v => k v
  | none => .fault (.unwrittenKey a)

/-- `S[a] <- v` (R11). -/
def storeS (s : State) (a v : Byte) : State := { s with S := Memory.write s.S a v }

/-- `KEY[a] <- v` (R11). -/
def storeKey (s : State) (a v : Byte) : State := { s with KEY := Memory.write s.KEY a v }

/-- `swap(S[a], S[b])`: `t <- S[a]; S[a] <- S[b]; S[b] <- t`, one indivisible action (R11, R57). -/
def swapS (s : State) (a b : Byte) (k : State → Result) : Result :=
  fetchS s a fun t => fetchS s b fun u => k (storeS (storeS s a u) b t)

/-- The bits of a completion code (R77). -/
def codeBits : Code → BitVec 4
  | .ok => 0x0
  | .invalidKey => 0x1
  | .notReady => 0x2
  | .illegal => 0x3

/-- The response word of format R: `{0x000, code[3:0], data[15:0]}` (R76). -/
def responseWord (c : Code) (data : Half) : Word := 0#12 ++ codeBits c ++ data

/-- `CODE = rsp[19:16]` (R76). -/
def codeField (w : Word) : BitVec 4 := w.extractLsb' 16 4

/-- `RDATA = rsp[15:0]` (R76). -/
def rdataField (w : Word) : Half := w.extractLsb' 0 16

/-- `RRSVD = rsp[31:20]` (R76). -/
def rrsvdField (w : Word) : BitVec 12 := w.extractLsb' 20 12

/-- `respond(code, data)`: `RESP <- {code, data}` (R11, R76). -/
def respond (c : Code) (data : Half) (s : State) : State := { s with RESP := some (responseWord c data) }

/-- `raise E`, the one error mechanism: the response `{E, 0}` and no other state change. There is no trap, so nothing is
saved and nothing returned from (R11, R160, R168). -/
def raiseError (c : Code) (s : State) : Result := .next (respond c 0 s)

/-- Every piece of engine state at its reset value (R34), as SRST and the reset port leave it before any response. The
host's own lists are no state of the engine (R20) and stay. -/
def resetEngine (s : State) : State := { State.reset with agenda := s.agenda, received := s.received }

end Sys2Proof.Machine
end

