-- ==== Sys2Proof/Machine/Flags.lean ====
section
/-! DEFINITION. The flag `SVALID` (10_state.md R25), the `STATUS` register (R35) and the level outputs (R31). There are no
condition codes (10_state.md, end of section 5). -/

namespace Sys2Proof.Machine

/-- `SVALID <- 0` (R25). -/
def clearSvalid (s : State) : State := { s with SVALID := false }

/-- `SVALID <- 1` (R25). -/
def setSvalid (s : State) : State := { s with SVALID := true }

/-- `STATUS`: bit 0 is `SVALID`, bits 15:1 read 0 (R35). -/
def statusWord (s : State) : Half := (BitVec.ofBool s.SVALID).setWidth 16

/-- The `busy` output: `PHASE = KSA` (R31). -/
def busyOut (s : State) : Bool := s.PHASE == .ksa

/-- The `svalid` output (R31). -/
def svalidOut (s : State) : Bool := s.SVALID

end Sys2Proof.Machine
end

