-- ==== Sys2Proof/Machine/Operands.lean ====
section
/-! DEFINITION. Operand widening and the computed cell indices (30_encoding.md R73, R75; 20_memory.md R56), and the register
space of RDR (10_state.md R35). -/

namespace Sys2Proof.Machine

/-- `zext_16` (R10, R73): widening with zeros; nothing is sign-extended. -/
def zext16 {n : Nat} (v : BitVec n) : Half := v.setWidth 16

/-- The cell KPUSH writes: `KLEN` when `KLEN < 256`, none otherwise (R56, R102). -/
def pushCell (klen : Count) : Option Byte :=
  if klen.toNat < Config.keyBufferDepth then some (klen.setWidth 8) else none

/-- The key cell of KSA iteration `i`: `i mod KLEN`, defined only for `KLEN ≥ 1` (R10, R106). -/
def keyCell (i : Byte) (klen : Count) : Option Byte :=
  if klen = 0 then none else some (BitVec.ofNat 8 (i.toNat % klen.toNat))

/-- The value RDR returns for a selector, none for the reserved ones 0x04..0xFF (R35). -/
def registerValue (sel : Byte) (s : State) : Option Half :=
  if sel = 0x00#8 then some (zext16 s.I)
  else if sel = 0x01#8 then some (zext16 s.J)
  else if sel = 0x02#8 then some (zext16 s.KLEN)
  else if sel = 0x03#8 then some (statusWord s)
  else none

end Sys2Proof.Machine
end

