-- ==== Sys2Proof/Machine/Control.lean ====
section
/-! DEFINITION. Control and observation: NOP, SRD, RDR, SRST (42_control.md). -/

namespace Sys2Proof.Machine

/-- NOP (R140). -/
def execNop (s : State) : Result := .next (respond .ok 0 s)

/-- SRD a (R141). -/
def execSrd (a : Byte) (s : State) : Result :=
  if s.SVALID then fetchS s a fun v => .next (respond .ok (zext16 v) s)
  else raiseError .notReady s

/-- RDR sel (R142). For a reserved selector RDR responds `ILLEGAL` (R35); the decoder gives none (R79 item 4). -/
def execRdr (sel : Byte) (s : State) : Result :=
  match registerValue sel s with
  | some v => .next (respond .ok v s)
  | none => raiseError .illegal s

/-- SRST (R143): the reset state, and the command's own response. -/
def execSrst (s : State) : Result := .next (respond .ok 0 (resetEngine s))

end Sys2Proof.Machine
end

