-- ==== Sys2Proof/Machine/KeySchedule.lean ====
section
/-! DEFINITION. Key loading and the key schedule: KCLR, KPUSH, KSA and the KSA iteration (40_ksa.md). -/

namespace Sys2Proof.Machine

/-- KCLR (R100). The cells of `KEY` are not cleared. -/
def execKclr (s : State) : Result := .next (respond .ok 0 (clearSvalid { s with KLEN := 0 }))

/-- The key buffer after KPUSH kb: the byte appended, or discarded when 256 are held (R102). -/
def appendKey (kb : Byte) (s : State) : State :=
  match pushCell s.KLEN with
  | some a => { storeKey s a kb with KLEN := s.KLEN + 1 }
  | none => s

/-- KPUSH kb (R102): the response carries the key length after the push. -/
def execKpush (kb : Byte) (s : State) : Result :=
  let s1 := appendKey kb s
  .next (respond .ok (zext16 s1.KLEN) (clearSvalid s1))

/-- The key schedule as it stands at acceptance: identity table, `J = KCTR = 0`, `PHASE = KSA`, no response yet (R105). -/
def startSchedule (s : State) : State :=
  { clearSvalid s with S := Memory.identity, J := 0, KCTR := 0, PHASE := .ksa }

/-- KSA (R105): with no key byte held, `SVALID <- 0` and `INVALID_KEY`. -/
def execKsa (s : State) : Result :=
  if s.KLEN = 0 then raiseError .invalidKey (clearSvalid s) else .next (startSchedule s)

/-- The end of a KSA iteration `i`: the schedule completes after `i = 255` and goes on otherwise (R106). -/
def endIteration (i : Byte) (s : State) : State :=
  if i = 255#8 then respond .ok 0 { setSvalid s with I := 0, J := 0, PHASE := .idle, KCTR := 0 }
  else { s with KCTR := i + 1 }

/-- One KSA iteration (R106), enabled exactly when `PHASE = KSA`: `S[i]` is read before the swap, and the swap uses the
new `J`. -/
def ksaIteration (s : State) : Result :=
  let i := s.KCTR
  match keyCell i s.KLEN with
  | none => .fault .emptyKeyModulo
  | some c =>
    fetchS s i fun si =>
    fetchKey s c fun kb =>
    let j := s.J + si + kb
    swapS { s with J := j } i j fun s1 =>
    .next (endIteration i s1)

/-- The engine's own step: a KSA iteration while `PHASE = KSA`, nothing otherwise (R9, R106). -/
def engineStep (s : State) : Result :=
  if s.PHASE = .ksa then ksaIteration s else .next s

end Sys2Proof.Machine
end

