-- ==== Sys2Proof/Machine/Keystream.lean ====
section
/-! DEFINITION. Keystream generation and the XOR combiner: PRGA (41_prga.md R120). -/

namespace Sys2Proof.Machine

/-- PRGA d (R120): steps 1 to 5 in order, each read seeing every earlier write of the same step (R12). -/
def execPrga (d : Byte) (s : State) : Result :=
  if s.SVALID then
    let i := s.I + 1
    fetchS s i fun si =>
    let j := s.J + si
    swapS { s with I := i, J := j } i j fun s1 =>
    fetchS s1 i fun x =>
    fetchS s1 j fun y =>
    fetchS s1 (x + y) fun k =>
    .next (respond .ok (zext16 (d ^^^ k)) s1)
  else raiseError .notReady s

end Sys2Proof.Machine
end

