-- ==== Sys2Proof/Machine/Dispatch.lean ====
section
/-! DEFINITION. Dispatch of an accepted command to its meaning (30_encoding.md R80). -/

namespace Sys2Proof.Machine

def exec (i : Instr) (s : State) : Host.Outcome State Fault Refusal :=
  match i with
  | .nop => Sys2Proof.Machine.execNop s
  | .kclr => Sys2Proof.Machine.execKclr s
  | .kpush kb => Sys2Proof.Machine.execKpush kb s
  | .ksa => Sys2Proof.Machine.execKsa s
  | .prga d => Sys2Proof.Machine.execPrga d s
  | .srd a => Sys2Proof.Machine.execSrd a s
  | .rdr sel => Sys2Proof.Machine.execRdr sel s
  | .srst => Sys2Proof.Machine.execSrst s

end Sys2Proof.Machine
end

