-- ==== Sys2Proof/Machine/Port.lean ====
section
/-! DEFINITION. The ports (10_state.md R28 to R31): acceptance of a command, delivery of a response, reset, and one clock edge
with given input pins. -/

namespace Sys2Proof.Machine

/-- `cmd_ready = (PHASE = IDLE) ∧ (RESP = none) ∧ ¬rst` (R29). -/
def cmdReady (rst : Bool) (s : State) : Bool := s.PHASE == .idle && s.RESP.isNone && !rst

/-- `rsp_valid = (RESP ≠ none)` (R30). -/
def rspValid (s : State) : Bool := s.RESP.isSome

/-- The output ports (R28). `rspData` is none while `RESP` is: no word is held then (log entry 9). -/
structure Outputs where
  cmdReady : Bool
  rspValid : Bool
  rspData : Option Word
  busy : Bool
  svalid : Bool
  deriving DecidableEq, Repr

/-- The output ports in a state, combinational views with no effect of their own (R29 to R31). -/
def outputs (rst : Bool) (s : State) : Outputs where
  cmdReady := cmdReady rst s
  rspValid := rspValid s
  rspData := s.RESP
  busy := busyOut s
  svalid := svalidOut s

/-- Acceptance of the word `w`: the engine decodes and executes it; the illegality check comes before any other condition
(R29, R80, R163, R165). -/
def accept (w : Word) (s : State) : Result :=
  match decode w with
  | .command i => exec i s
  | .illegal _ => raiseError .illegal s

/-- Delivery of a response word: the host receives it and `RESP <- none` (R30). A reserved code, which is never produced,
faults (U8). -/
def deliver (s : State) : Result :=
  match s.RESP with
  | none => .next s
  | some w =>
    if 4#4 ≤ codeField w then .fault (.reservedCode w)
    else .next { s with RESP := none, received := s.received ++ [w] }

/-- One clock edge with the input pins `p`. Reset wins over everything (R166, R180); then a command is accepted where
`cmd_valid ∧ cmd_ready` (R29); then a response is delivered where `rsp_valid ∧ rsp_ready` (R30); otherwise the engine takes
its own step if `engineMoves` says so (R106). In a state that meets R32 at most one of the last three is enabled
(log entry 6). -/
def clockEdge (p : Pins) (engineMoves : Bool) (s : State) : Result :=
  if p.rst then .next (resetEngine s)
  else if p.cmdValid && cmdReady p.rst s then accept p.cmdData s
  else if p.rspReady && rspValid s then deliver s
  else if engineMoves then engineStep s
  else .next s

/-- The input pins a host move drives (R28). -/
def movePins : Move → Pins
  | .issue w => { cmdValid := true, cmdData := w }
  | .consume => { rspReady := true }
  | .edge p _ => p

/-- Whether the engine takes its enabled step at a move's edge: always while the host waits (R29: the iterations lift the
hold), as the move says at an edge of its own. -/
def moveEngine : Move → Bool
  | .issue _ => true
  | .consume => true
  | .edge _ e => e

/-- Whether the host holds its move in this state: a command until `cmd_ready`, a readiness until `rsp_valid`; reset is never
held (R29, R30, R181). -/
def held (m : Move) (s : State) : Bool :=
  match m with
  | .issue _ => !cmdReady false s
  | .consume => !rspValid s
  | .edge _ _ => false

/-- One step of the two agents: the host's next move and the engine's part in it, or the engine alone where the host has no
move left (R9, R190). -/
def agentsStep (s : State) : Result :=
  match s.agenda with
  | [] => engineStep s
  | m :: rest => clockEdge (movePins m) (moveEngine m) (if held m s then s else { s with agenda := rest })

/-- The state in which the word `w` is offered and accepted at the very next step. -/
def offerWord (w : Word) (s : State) : State :=
  { s with PHASE := .idle, RESP := none, agenda := .issue w :: s.agenda }

end Sys2Proof.Machine
end

