-- ==== Sys2Proof/Machine/Step.lean ====
section
/-! DEFINITION. The step function. -/

namespace Sys2Proof.Machine

/-- One step of the machine (00_scope.md R9, 70_reset_and_hazards.md R190). -/
def step (s : State) : Host.Outcome State Fault Refusal := agentsStep s

/-- `s` with the command word offered next and the engine able to accept it (R29; log entry 4). -/
def State.withFetchWord (s : State) (nbits w : Nat) : State := offerWord (tableWord nbits w) s

end Sys2Proof.Machine
end

