-- ==== Sys2Proof/Machine/Algorithm.lean ====
section
/-! DEFINITION. The source's two algorithms as the spec transcribes them (40_ksa.md R103, 41_prga.md R121), on a table of 256
bytes indexed by a byte. They are no part of the step; statements compare the engine with them. -/

namespace Sys2Proof.Machine

/-- The permutation state of the source: position `a` holds a byte (R21). -/
abbrev Table := Byte → Byte

/-- `swap(S[a], S[b])` (R103, R121). -/
def sourceSwap (S : Table) (a b : Byte) : Table :=
  fun x => if x = a then S b else if x = b then S a else S x

/-- `key[i mod L]`, read for `L ≥ 1` only (R103): the index is then below `L`. -/
def sourceKeyByte (key : List Byte) (i : Byte) : Byte := key.getD (i.toNat % key.length) 0

/-- The positions 0, 1, ..., 255 in order (R103). -/
def positions : List Byte := (List.range 256).map (BitVec.ofNat 8)

/-- One round of R103 step 3 on the table and the accumulator `j`. -/
def sourceKsaRound (key : List Byte) (p : Table × Byte) (i : Byte) : Table × Byte :=
  let j := p.2 + p.1 i + sourceKeyByte key i
  (sourceSwap p.1 i j, j)

/-- The rounds of R103 step 3 over a list of positions, from the identity table and `j = 0` (steps 1 and 2). -/
def sourceKsaRounds (key : List Byte) (is : List Byte) : Table × Byte :=
  is.foldl (sourceKsaRound key) (id, 0)

/-- `ksa(key)` (R103), not defined for the empty key. -/
def sourceKsa (key : List Byte) : Option Table :=
  if key = [] then none else some (sourceKsaRounds key positions).1

/-- The keystream loop of R121 from the table `S` and the indices `i`, `j`: the output bytes, and the table and indices left. -/
def sourcePrga (S : Table) (i j : Byte) : List Byte → List Byte × Table × Byte × Byte
  | [] => ([], S, i, j)
  | d :: ds =>
    let i' := i + 1
    let j' := j + S i'
    let S' := sourceSwap S i' j'
    let k := S' (S' i' + S' j')
    let r := sourcePrga S' i' j' ds
    ((d ^^^ k) :: r.1, r.2)

/-- `cipher(key, input)` of the source (30_encoding.md R85, 42_control.md R150): none is the failure `InvalidKey`. -/
def sourceCipher (key msg : List Byte) : Option (List Byte) :=
  (sourceKsa key).map fun S => (sourcePrga S 0 0 msg).1

end Sys2Proof.Machine
end

