-- ==== Sys2Proof/Machine/Sequences.lean ====
section
/-! DEFINITION. The pseudo-instructions (30_encoding.md R84), the source's calls as command sequences (R85) and the cipher
facade's command sequence (42_control.md R150): host behaviour, written as lists of commands and of host moves. The host that
looks at the responses stands in Facade.lean. -/

namespace Sys2Proof.Machine

/-- The pseudo-instructions of R84. -/
inductive Pseudo where
  | key (bytes : List Byte)
  | init (bytes : List Byte)
  | xor (data : List Byte)
  | kstream (n : Nat)
  | cipher (key msg : List Byte)
  deriving DecidableEq, Repr

/-- `KEY b0, ..., b(L-1)`: `KCLR`, then one KPUSH per byte (R84). -/
def keySequence (key : List Byte) : List Instr := .kclr :: key.map .kpush

/-- `INIT b0, ..., b(L-1)`: the source's `initialize_state(key)` (R84, R85). -/
def initSequence (key : List Byte) : List Instr := keySequence key ++ [.ksa]

/-- `XOR d0, ..., d(n-1)`: the source's `apply_keystream(state, input)` (R84, R85). -/
def xorSequence (data : List Byte) : List Instr := data.map .prga

/-- `KSTREAM n`: `PRGA 0x00` repeated `n` times (R84). -/
def kstreamSequence (n : Nat) : List Instr := List.replicate n (.prga 0)

/-- `CIPHER key, msg`: the source's `cipher(key, input)`, the fixed sequence of one facade call (R84, R85, R150). With an empty key
its PRGA commands respond `NOT_READY` (R85); the host of R150, which then issues none, is `facadeStep`. -/
def cipherSequence (key msg : List Byte) : List Instr := initSequence key ++ xorSequence msg

/-- The fixed command sequence a pseudo-instruction expands to (R84). -/
def Pseudo.expand : Pseudo → List Instr
  | .key bs => keySequence bs
  | .init bs => initSequence bs
  | .xor ds => xorSequence ds
  | .kstream n => kstreamSequence n
  | .cipher k m => cipherSequence k m

/-- The host's moves for a stream of command words, each response consumed before the next command (R150). -/
def wordMoves (ws : List Word) : List Move := ws.flatMap fun w => [.issue w, .consume]

/-- The host's moves for a command sequence. -/
def hostMoves (is : List Instr) : List Move := wordMoves (is.map encode)

/-- How many steps the moves of `cipherSequence key msg` take with a nonempty key: an issue and a consume a command, and the
256 iterations of the key schedule (R190). -/
def cipherSteps (key msg : List Byte) : Nat := 2 * (1 + key.length) + (2 + Config.ksaIterations) + 2 * msg.length

/-- The output bytes: the `RDATA[7:0]` of the last `n` responses received, in order (R85). -/
def lastBytes (n : Nat) (s : State) : List Byte :=
  (s.received.drop (s.received.length - n)).map fun w => w.extractLsb' 0 8

/-- The input byte of a PRGA command, none for another command. -/
def dataByte : Instr → Option Byte
  | .prga d => some d
  | .nop => none
  | .kclr => none
  | .kpush _ => none
  | .ksa => none
  | .srd _ => none
  | .rdr _ => none
  | .srst => none

/-- The commands that may stand between the PRGA commands of a message without disturbing it: NOP, SRD, RDR (R122). -/
def observes : Instr → Bool
  | .nop => true
  | .srd _ => true
  | .rdr _ => true
  | .prga _ => false
  | .kclr => false
  | .kpush _ => false
  | .ksa => false
  | .srst => false

/-- The message a command sequence carries: the input bytes of its PRGA commands, in order (R55, R122). -/
def messageData (is : List Instr) : List Byte := is.filterMap dataByte

/-- The output bytes among the responses `rs` to the commands `is`: the `RDATA[7:0]` of those to PRGA (R85, R122). -/
def messageOutputs (is : List Instr) (rs : List Word) : List Byte :=
  (is.zip rs).filterMap fun p => (dataByte p.1).map fun _ => p.2.extractLsb' 0 8

end Sys2Proof.Machine
end

