-- ==== Sys2Proof/Machine/Facade.lean ====
section
/-! DEFINITION. The cipher facade as the host of 42_control.md R150: it loads the key, runs the key schedule, looks at the
response, and then either issues the PRGA commands of the message or reports `InvalidKey` and issues none. Host behaviour beside
the engine's step, not engine state (R150; log entry 16). -/

namespace Sys2Proof.Machine

/-- What a facade call reports: the source's `cipher(key, input)` (30_encoding.md R85, 42_control.md R150). -/
inductive FacadeReport where
  /-- the output bytes -/
  | output (bytes : List Byte)
  /-- the failure `InvalidKey` of an empty key -/
  | invalidKey
  deriving DecidableEq, Repr

/-- How far a facade call has come: the two phases of R150, then its report. -/
inductive FacadeStage where
  /-- the commands of `INIT key` are being issued -/
  | initialising
  /-- the PRGA commands of the message are being issued -/
  | applying
  | reported (r : FacadeReport)
  deriving DecidableEq, Repr

/-- A host in a facade call, and its engine. -/
structure Facade where
  engine : State
  message : List Byte
  stage : FacadeStage
  deriving DecidableEq, Repr

/-- The call `cipher(key, msg)` begins: `INIT key` stands last among the host's moves (R150). -/
def facadeCall (key msg : List Byte) (s : State) : Facade where
  engine := { s with agenda := s.agenda ++ hostMoves (initSequence key) }
  message := msg
  stage := .initialising

/-- The last response received carries `INVALID_KEY` (R150, R161). -/
def keyRejected (s : State) : Bool :=
  match s.received.getLast? with
  | some w => codeField w == codeBits .invalidKey
  | none => false

/-- What the host does when it has consumed the response to its last command (R150): after the key schedule it goes on to the
message, or reports `InvalidKey` and issues no PRGA; after the message it reports the output. -/
def facadeDecide (f : Facade) : Facade :=
  match f.stage with
  | .initialising =>
    if keyRejected f.engine then { f with stage := .reported .invalidKey }
    else { f with engine := { f.engine with agenda := hostMoves (xorSequence f.message) }, stage := .applying }
  | .applying => { f with stage := .reported (.output (lastBytes f.message.length f.engine)) }
  | .reported _ => f

/-- One step of a facade call: a step of the engine and its host's moves, or, with no move left, what the host does next. -/
def facadeStep (f : Facade) : Host.Outcome Facade Fault Refusal :=
  match f.engine.agenda with
  | [] => .next (facadeDecide f)
  | _ :: _ =>
    match step f.engine with
    | .next t => .next { f with engine := t }
    | .fault r => .fault r
    | .refused r => .refused r

/-- `n` steps of a facade call. -/
def facadeRun : Nat → Facade → Host.Outcome Facade Fault Refusal
  | 0, f => .next f
  | n + 1, f =>
    match facadeStep f with
    | .next g => facadeRun n g
    | .fault r => .fault r
    | .refused r => .refused r

end Sys2Proof.Machine
end

