-- ==== Sys2Proof/Machine/Platform.lean ====
section
/-! DEFINITION. A platform of several engines (60_exceptions.md R171, R172): each instance has its own state, and none reads
or signals another. -/

namespace Sys2Proof.Machine

/-- The engines of a platform, by position. -/
abbrev Platform := List State

/-- `NUM_ENGINES` instances, each in the reset state (R171). -/
def Platform.reset : Platform := List.replicate Config.numEngines State.reset

/-- One step of instance `k` and of no other; a position that holds no instance does nothing. -/
def platformStep (k : Nat) (p : Platform) : Host.Outcome Platform Fault Refusal :=
  match p[k]? with
  | none => .next p
  | some s =>
    match step s with
    | .next t => .next (p.set k t)
    | .fault r => .fault r
    | .refused r => .refused r

end Sys2Proof.Machine
end

