-- ==== Sys2Proof/Safety.lean ====
section
/-! DEFINITION. The invariants of the machine (10_state.md R32), what a safe run is (R33, R173), and the end of a run with its
observation (70_reset_and_hazards.md R192). -/

namespace Sys2Proof.Machine

/-- `S` is "a permutation of {0,...,255}" (R22): every cell holds a value, and no value stands in two cells. -/
def Memory.IsPermutation (m : Memory) : Prop :=
  (∀ a : Byte, ∃ v : Byte, Memory.read m a = some v) ∧
  (∀ a b v : Byte, Memory.read m a = some v → Memory.read m b = some v → a = b)

/-- A response word as R76 and R77 describe it: the reserved bits zero, an assigned code, no data beside an error. -/
def ResponseOk (w : Word) : Prop :=
  rrsvdField w = 0 ∧ codeField w < 4#4 ∧ (codeField w ≠ 0 → rdataField w = 0)

/-- The six invariants of R32 (its items 1 to 6, the history of item 5 as the value that history leaves), and what the model
adds: the canonical form of both memories, the permutation a key schedule in progress works on, and the form of the response
words. -/
structure State.Inv (s : State) : Prop where
  /-- R32 item 1 -/
  klen_le : s.KLEN.toNat ≤ 256
  /-- R32 item 2 -/
  svalid_permutation : s.SVALID = true → Memory.IsPermutation s.S
  /-- R32 item 3 -/
  ksa_quiet : s.PHASE = .ksa → s.SVALID = false ∧ s.RESP = none ∧ 1 ≤ s.KLEN.toNat
  /-- R32 item 4 -/
  resp_idle : s.RESP ≠ none → s.PHASE = .idle
  /-- R32 item 5: a cell below `KLEN` holds a value -/
  key_written : ∀ k : Nat, k < s.KLEN.toNat → ∃ v : Byte, Memory.read s.KEY (BitVec.ofNat 8 k) = some v
  /-- R32 item 6 -/
  empty_invalid : s.KLEN = 0 → s.SVALID = false
  /-- the model's: a schedule in progress works on a permutation (from R105, R106) -/
  ksa_permutation : s.PHASE = .ksa → Memory.IsPermutation s.S
  /-- the model's: canonical form of `S` -/
  s_wf : Memory.wf s.S = true
  /-- the model's: canonical form of `KEY` -/
  key_wf : Memory.wf s.KEY = true
  /-- R76, R77: the pending response -/
  resp_ok : ∀ w : Word, s.RESP = some w → ResponseOk w
  /-- R76, R77: the responses received -/
  received_ok : ∀ w : Word, w ∈ s.received → ResponseOk w

/-- A run is safe when no number of steps reaches a fault or a refusal (R33, R173). -/
def State.Safe (s : State) : Prop := ∀ n : Nat, ∃ t : State, Sys2Proof.core.run n s = .next t

/-- The command word `w` is offered and the engine can accept it; `rest` is what the host does after it (R29). -/
def State.Offers (s : State) (w : Word) (rest : List Move) : Prop :=
  s.PHASE = .idle ∧ s.RESP = none ∧ s.agenda = .issue w :: rest

/-- The four conditions of R79 under which a command word is illegal. -/
def IllegalWord (w : Word) : Prop :=
  8#4 ≤ opField w ∨ rsvdField w ≠ 0 ∨
  ((opField w = 0 ∨ opField w = 1 ∨ opField w = 3 ∨ opField w = 7) ∧ imm8Field w ≠ 0) ∨
  (opField w = 6 ∧ 4#8 ≤ imm8Field w)

/-- The end of a host's command stream (R192). DESIGN CHOICE (log entry 17): every move of the host belongs to the run, an idle edge
and a trailing reset too, so the run ends only when no move is left; R192 speaks of the last command and the last response. -/
def State.ended (s : State) : Bool := s.agenda == [] && s.PHASE == .idle && s.RESP.isNone

/-- What a run shows (R192): the responses received, and what SRD and RDR would return. -/
structure Observation where
  responses : List Word
  entries : List (Option Word)
  registers : List (Option Word)
  deriving DecidableEq, Repr

/-- The response a meaning leaves, none where it gives no next state. -/
def responseOf : Result → Option Word
  | .next t => t.RESP
  | .fault _ => none
  | .refused _ => none

/-- The observation of a state at the end of a run (R192). -/
def State.observation (s : State) : Observation where
  responses := s.received
  entries := (List.range 256).map fun a => responseOf (exec (.srd (BitVec.ofNat 8 a)) s)
  registers := (List.range 4).map fun r => responseOf (exec (.rdr (BitVec.ofNat 8 r)) s)

end Sys2Proof.Machine
end

