-- ==== Sys2Proof/Certificates/Slice0/Obligations.lean ====
section
/-! DEFINITION. The statements for the provers. Each docstring names the rule of spec/ the statement comes from. -/

open Sys2Proof Sys2Proof.Machine

/-! ### Encoding -/

/-- 30_encoding.md R70, R74, R83: decoding the word of a well-formed command gives that command, for every operand. -/
def Obligations.DecodeOfEncodeIsTheCommand : Prop :=
  ∀ i : Instr, i.wellFormed = true → decode (encode i) = .command i

/-- 30_encoding.md R74, R81: a word that decodes to a command is the word of that well-formed command and of no other. -/
def Obligations.EncodeOfDecodeIsTheWord : Prop :=
  ∀ (w : Word) (i : Instr), decode w = .command i → i.wellFormed = true ∧ encode i = w

/-- Words written out from the encodings of 30_encoding.md R74 and the examples of R83 and 95_test_vectors.md, one for each
command, decode to the commands they stand for. A sanity statement. -/
def Obligations.SampleWordsDecode : Prop :=
  decode 0x00000000 = .command .nop ∧ decode 0x10000000 = .command .kclr ∧
  decode 0x2000004B = .command (.kpush 0x4B) ∧ decode 0x30000000 = .command .ksa ∧
  decode 0x40000050 = .command (.prga 0x50) ∧ decode 0x500000FF = .command (.srd 0xFF) ∧
  decode 0x60000001 = .command (.rdr 1) ∧ decode 0x70000000 = .command .srst

/-- 30_encoding.md R74: a word decodes to a command of a row exactly when it selects the row, `(w AND mask) = match`; the words
that select the reserved row are illegal. The rows are disjoint, since decoding gives one answer, and a word that selects no
row is illegal. -/
def Obligations.OpcodeMapRowsSelectTheCommands : Prop :=
  ∀ w : Word,
    (decode w = .command .nop ↔ w &&& 0xFFFFFFFF = 0x00000000) ∧
    (decode w = .command .kclr ↔ w &&& 0xFFFFFFFF = 0x10000000) ∧
    ((∃ kb, decode w = .command (.kpush kb)) ↔ w &&& 0xFFFFFF00 = 0x20000000) ∧
    (decode w = .command .ksa ↔ w &&& 0xFFFFFFFF = 0x30000000) ∧
    ((∃ d, decode w = .command (.prga d)) ↔ w &&& 0xFFFFFF00 = 0x40000000) ∧
    ((∃ a, decode w = .command (.srd a)) ↔ w &&& 0xFFFFFF00 = 0x50000000) ∧
    ((∃ sel, decode w = .command (.rdr sel)) ↔ w &&& 0xFFFFFFFC = 0x60000000) ∧
    (decode w = .command .srst ↔ w &&& 0xFFFFFFFF = 0x70000000) ∧
    (w &&& 0x80000000 = 0x80000000 → ∃ r, decode w = .illegal r) ∧
    ((∃ r, decode w = .illegal r) ↔ ∀ i : Instr, i.selectedBy w = false)

/-- 30_encoding.md R79, 60_exceptions.md R163: the illegal words are those of the four items; an illegal word is accepted like
any command, changes no state but `RESP` and responds `{ILLEGAL, 0}`. (`rest` is what the host does after it.) -/
def Obligations.IllegalWordsRespondIllegal : Prop :=
  (∀ w : Word, (∃ r, decode w = .illegal r) ↔ IllegalWord w) ∧
  (∀ (s : State) (w : Word) (rest : List Move), s.Offers w rest → IllegalWord w →
    step s = .next { s with agenda := rest, RESP := some 0x00030000 })

/-- 30_encoding.md section 5 (the inference of R81 from R74 and R79, which the spec marks as derived): there are 776 legal
words in all. -/
def Obligations.LegalWordsNumber776 : Prop :=
  ∃ ws : List Word, ws.Nodup ∧ ws.length = 776 ∧ ∀ w : Word, w ∈ ws ↔ ∃ i, decode w = .command i

/-- 20_memory.md R54 (the byte order of a byte-wide transport is an open parameter): in either order, the bytes of a word carry
that word. The transport functions are the model's (log entry 13). -/
def Obligations.TransportCarriesTheWord : Prop :=
  ∀ (o : ByteOrder) (w : Word) (rest : List Byte), wordOfBytes o (wordToBytes o w ++ rest) = some (w, rest)

/-! ### The step and the ports -/

/-- 10_state.md R29, 30_encoding.md R80: where a command word is offered and the engine is ready, the step is the meaning of the
decoded command, with the host's move done, and the same at an edge with `cmd_valid` driven by hand. The third clause is the
model's choice, not R29's: `withFetchWord` (log entry 4, DESIGN CHOICE) makes an engine ready that is not, dropping a schedule in
progress or a pending response, where R29 accepts a command only in a ready state. -/
def Obligations.StepRunsTheDecodedCommand : Prop :=
  (∀ (s : State) (w : Word) (rest : List Move) (i : Instr), s.Offers w rest → decode w = .command i →
    i.wellFormed = true ∧ step s = exec i { s with agenda := rest }) ∧
  (∀ (s : State) (p : Pins) (e : Bool) (rest : List Move) (i : Instr), s.PHASE = .idle → s.RESP = none →
    s.agenda = .edge p e :: rest → p.rst = false → p.cmdValid = true → decode p.cmdData = .command i →
    step s = exec i { s with agenda := rest }) ∧
  (∀ (s : State) (w : Word) (i : Instr), decode w = .command i →
    step (s.withFetchWord 32 w.toNat) = exec i { s with PHASE := .idle, RESP := none })

/-- 10_state.md R29: `cmd_ready`; a command offered while it is 0 has no effect; the host holds it and only the engine's own
step is taken; at an edge where `cmd_valid ∧ cmd_ready` it is accepted. -/
def Obligations.CommandsAreAcceptedExactlyWhenReady : Prop :=
  (∀ (rst : Bool) (s : State),
    (outputs rst s).cmdReady = true ↔ (s.PHASE = .idle ∧ s.RESP = none ∧ rst = false)) ∧
  (∀ (p : Pins) (e : Bool) (s : State), (outputs p.rst s).cmdReady = false →
    clockEdge p e s = clockEdge { p with cmdValid := false } e s) ∧
  (∀ (s : State) (w : Word) (rest : List Move), s.agenda = .issue w :: rest → ¬ (s.PHASE = .idle ∧ s.RESP = none) →
    step s = engineStep s) ∧
  (∀ (p : Pins) (e : Bool) (s : State), p.cmdValid = true → (outputs p.rst s).cmdReady = true →
    clockEdge p e s = accept p.cmdData s)

/-- 10_state.md section 6 (R30): `rsp_valid` and `rsp_data`; at an edge where `rsp_valid ∧ rsp_ready` the host receives the word
and `RESP` empties; with a response never consumed, a further command is held and nothing changes. (A word whose code is
reserved is the model's fault of U8, so delivery is stated for the words R76 and R77 allow.) That `rspData` is none while no
response is held is the model's choice (log entry 9, DESIGN CHOICE): R30 gives `rsp_data` no value there. -/
def Obligations.ResponsesAreDeliveredOnceAndInOrder : Prop :=
  (∀ (rst : Bool) (s : State), ((outputs rst s).rspValid = true ↔ s.RESP ≠ none) ∧ (outputs rst s).rspData = s.RESP) ∧
  (∀ (s : State) (u : Word) (rest : List Move), s.RESP = some u → ResponseOk u →
    s.agenda = .consume :: rest →
    step s = .next { s with RESP := none, received := s.received ++ [u], agenda := rest }) ∧
  (∀ (s : State) (p : Pins) (e : Bool) (u : Word) (rest : List Move), s.RESP = some u → ResponseOk u →
    s.agenda = .edge p e :: rest → p.rst = false → p.rspReady = true →
    step s = .next { s with RESP := none, received := s.received ++ [u], agenda := rest }) ∧
  (∀ (s : State) (u w : Word) (rest : List Move), s.PHASE = .idle → s.RESP = some u →
    s.agenda = .issue w :: rest → step s = .next s)

/-- 10_state.md R29 to R31 with the invariants of R32: a busy engine is not ready, shows no response and no valid state; an
engine that shows a response is neither busy nor ready. -/
def Obligations.BusyEngineShowsNothing : Prop :=
  ∀ (s : State) (rst : Bool), s.Inv →
    ((outputs rst s).busy = true →
      (outputs rst s).cmdReady = false ∧ (outputs rst s).rspValid = false ∧ (outputs rst s).svalid = false) ∧
    ((outputs rst s).rspValid = true → (outputs rst s).busy = false ∧ (outputs rst s).cmdReady = false)

/-- 70_reset_and_hazards.md R180, 60_exceptions.md R166: at an edge where `rst = 1`, in every state and whatever the other pins,
no command is accepted, no iteration performed and no response delivered; the engine takes its reset values and then waits.
(Of `S` and `KEY`, which are unspecified, nothing is claimed.) -/
def Obligations.ResetWinsOverEverything : Prop :=
  ∀ (s : State) (p : Pins) (e : Bool) (rest : List Move), s.agenda = .edge p e :: rest → p.rst = true →
    (outputs p.rst s).cmdReady = false ∧
    ∃ t : State, step s = .next t ∧ t.KLEN = 0 ∧ t.I = 0 ∧ t.J = 0 ∧ t.SVALID = false ∧ t.PHASE = .idle ∧
      t.KCTR = 0 ∧ t.RESP = none ∧ t.received = s.received ∧ t.agenda = rest ∧ (rest = [] → step t = .next t)

/-! ### Invariants -/

/-- 10_state.md R32, R34: the invariants hold of the reset state. -/
def Obligations.ResetStateMeetsTheInvariants : Prop := State.reset.Inv

/-- 10_state.md section 7 (R32, an inference the spec marks as derived), R22: every step keeps the invariants, in every state
that meets them and whatever the host does next. The canonical form of the memories is the model's (log entry 1). -/
def Obligations.EveryStepKeepsTheInvariants : Prop :=
  ∀ s t : State, s.Inv → step s = .next t → t.Inv

/-- 10_state.md section 7 (R33), 60_exceptions.md section 9 (R173), inferences the spec marks as derived: from a state that
meets the invariants no run reads a cell without a value or meets any other fault, however many steps it takes. -/
def Obligations.NoRunFaults : Prop := ∀ s : State, s.Inv → s.Safe

/-- 70_reset_and_hazards.md section 4 (R191, which the spec marks as derived): with the engine scheduled, `PHASE = IDLE` is reached
in at most 256 steps. -/
def Obligations.EveryScheduleEndsWithin256Steps : Prop :=
  ∀ s : State, s.Inv →
    ∃ (n : Nat) (t : State), n ≤ 256 ∧ Sys2Proof.core.run n { s with agenda := [] } = .next t ∧ t.PHASE = .idle

/-! ### The commands -/

/-- 42_control.md R140: NOP. -/
def Obligations.NopOnlyResponds : Prop :=
  encode .nop = 0x00000000 ∧
  (∀ s : State, exec .nop s = .next { s with RESP := some 0x00000000 }) ∧
  (∀ (s : State) (w : Word) (rest : List Move), s.Offers w rest → opField w = 0x0 →
    (rsvdField w ≠ 0 ∨ imm8Field w ≠ 0) → step s = .next { s with agenda := rest, RESP := some 0x00030000 })

/-- 40_ksa.md R100: KCLR clears `KLEN` and `SVALID`; `KEY`, `S`, `I` and `J` keep their values; it is idempotent. -/
def Obligations.KclrEmptiesTheKey : Prop :=
  encode .kclr = 0x10000000 ∧
  (∀ s : State, exec .kclr s = .next { s with KLEN := 0, SVALID := false, RESP := some 0x00000000 }) ∧
  (∀ s t : State, exec .kclr s = .next t → exec .kclr t = .next t) ∧
  (∀ (s : State) (w : Word) (rest : List Move), s.Offers w rest → opField w = 0x1 →
    (rsvdField w ≠ 0 ∨ imm8Field w ≠ 0) → step s = .next { s with agenda := rest, RESP := some 0x00030000 })

/-- 40_ksa.md R102: KPUSH writes the byte at cell `KLEN` and no other cell, counts it, clears `SVALID` and responds with the new
`KLEN`; with 256 bytes held it discards the byte. -/
def Obligations.KpushAppendsTheKeyByte : Prop :=
  (∀ kb : Byte, encode (.kpush kb) = 0x20000000 ||| kb.setWidth 32) ∧
  (∀ (s : State) (kb : Byte), s.KLEN.toNat < 256 →
    ∃ t : State, exec (.kpush kb) s = .next t ∧
      Memory.read t.KEY (s.KLEN.setWidth 8) = some kb ∧
      (∀ a : Byte, a ≠ s.KLEN.setWidth 8 → Memory.read t.KEY a = Memory.read s.KEY a) ∧
      t = { s with KEY := t.KEY, KLEN := s.KLEN + 1, SVALID := false, RESP := some ((s.KLEN + 1).setWidth 32) }) ∧
  (∀ (s : State) (kb : Byte), ¬ s.KLEN.toNat < 256 →
    exec (.kpush kb) s = .next { s with SVALID := false, RESP := some (s.KLEN.setWidth 32) }) ∧
  (∀ (s : State) (w : Word) (rest : List Move), s.Offers w rest → opField w = 0x2 → rsvdField w ≠ 0 →
    step s = .next { s with agenda := rest, RESP := some 0x00030000 })

/-- 40_ksa.md R105: KSA at acceptance: `INVALID_KEY` for an empty key; otherwise the identity table, `J = KCTR = 0`,
`SVALID <- 0`, `PHASE <- KSA` and no response yet. -/
def Obligations.KsaStartsTheSchedule : Prop :=
  encode .ksa = 0x30000000 ∧
  (∀ s : State, s.KLEN = 0 → exec .ksa s = .next { s with SVALID := false, RESP := some 0x00010000 }) ∧
  (∀ s : State, s.KLEN ≠ 0 →
    ∃ t : State, exec .ksa s = .next t ∧ (∀ a : Byte, Memory.read t.S a = some a) ∧
      t = { s with S := t.S, J := 0, KCTR := 0, SVALID := false, PHASE := .ksa }) ∧
  (∀ (s : State) (w : Word) (rest : List Move), s.Offers w rest → opField w = 0x3 →
    (rsvdField w ≠ 0 ∨ imm8Field w ≠ 0) → step s = .next { s with agenda := rest, RESP := some 0x00030000 })

/-- 40_ksa.md R106: the KSA iteration `i = KCTR`, enabled exactly when `PHASE = KSA`. With `si = S[i]` and `sj = S[J]` before the
swap and `J` the new accumulator, the two cells are exchanged, no other cell changes, and the schedule goes on or completes. -/
def Obligations.KsaIterationSwapsAndAdvances : Prop :=
  (∀ (s : State) (si sj kb : Byte), s.PHASE = .ksa → s.KLEN ≠ 0 → Memory.read s.S s.KCTR = some si →
    Memory.read s.KEY (BitVec.ofNat 8 (s.KCTR.toNat % s.KLEN.toNat)) = some kb →
    Memory.read s.S (s.J + si + kb) = some sj →
    ∃ t : State, engineStep s = .next t ∧
      Memory.read t.S s.KCTR = some sj ∧ Memory.read t.S (s.J + si + kb) = some si ∧
      (∀ a : Byte, a ≠ s.KCTR → a ≠ s.J + si + kb → Memory.read t.S a = Memory.read s.S a) ∧
      (s.KCTR = 255#8 → t = { s with S := t.S, I := 0, J := 0, SVALID := true, PHASE := .idle, KCTR := 0,
                                     RESP := some 0x00000000 }) ∧
      (s.KCTR ≠ 255#8 → t = { s with S := t.S, J := s.J + si + kb, KCTR := s.KCTR + 1 })) ∧
  (∀ s : State, s.PHASE ≠ .ksa → engineStep s = .next s)

/-- 41_prga.md R120: PRGA d. Without a valid state it responds `NOT_READY` and changes nothing else; otherwise steps 1 to 5: the new
indices, the swap of the two cells and no other, and `d XOR k` with `k` read after the swap. -/
def Obligations.PrgaReturnsTheCombinedByte : Prop :=
  (∀ d : Byte, encode (.prga d) = 0x40000000 ||| d.setWidth 32) ∧
  (∀ (s : State) (d : Byte), s.SVALID = false → exec (.prga d) s = .next { s with RESP := some 0x00020000 }) ∧
  (∀ (s : State) (d : Byte), s.SVALID = true → (∀ a : Byte, ∃ v, Memory.read s.S a = some v) →
    ∃ (t : State) (si sj k : Byte), exec (.prga d) s = .next t ∧
      Memory.read s.S (s.I + 1) = some si ∧ Memory.read s.S (s.J + si) = some sj ∧
      Memory.read t.S (s.I + 1) = some sj ∧ Memory.read t.S (s.J + si) = some si ∧
      (∀ a : Byte, a ≠ s.I + 1 → a ≠ s.J + si → Memory.read t.S a = Memory.read s.S a) ∧
      Memory.read t.S (sj + si) = some k ∧
      t = { s with S := t.S, I := s.I + 1, J := s.J + si, RESP := some ((d ^^^ k).setWidth 32) }) ∧
  (∀ (s : State) (w : Word) (rest : List Move), s.Offers w rest → opField w = 0x4 → rsvdField w ≠ 0 →
    step s = .next { s with agenda := rest, RESP := some 0x00030000 })

/-- 42_control.md R141: SRD a reads one entry and changes nothing but `RESP`; without a valid state it responds `NOT_READY`;
with one, reading all 256 entries returns each value exactly once (corner cases, 10_state.md R22). -/
def Obligations.SrdReadsTheEntry : Prop :=
  (∀ a : Byte, encode (.srd a) = 0x50000000 ||| a.setWidth 32) ∧
  (∀ (s : State) (a : Byte), s.SVALID = false → exec (.srd a) s = .next { s with RESP := some 0x00020000 }) ∧
  (∀ (s : State) (a v : Byte), s.SVALID = true → Memory.read s.S a = some v →
    exec (.srd a) s = .next { s with RESP := some (v.setWidth 32) }) ∧
  (∀ s : State, s.Inv → s.SVALID = true →
    ∀ v : Byte, ∃! a : Byte, exec (.srd a) s = .next { s with RESP := some (v.setWidth 32) }) ∧
  (∀ (s : State) (w : Word) (rest : List Move), s.Offers w rest → opField w = 0x5 → rsvdField w ≠ 0 →
    step s = .next { s with agenda := rest, RESP := some 0x00030000 })

/-- 42_control.md R142, 10_state.md R35: RDR returns `I`, `J`, `KLEN` or `STATUS` and changes nothing but `RESP`; the other
selectors, and a nonzero reserved field, respond `ILLEGAL`. -/
def Obligations.RdrReadsTheRegister : Prop :=
  (∀ sel : Byte, encode (.rdr sel) = 0x60000000 ||| sel.setWidth 32) ∧
  (∀ s : State,
    exec (.rdr 0) s = .next { s with RESP := some (s.I.setWidth 32) } ∧
    exec (.rdr 1) s = .next { s with RESP := some (s.J.setWidth 32) } ∧
    exec (.rdr 2) s = .next { s with RESP := some (s.KLEN.setWidth 32) } ∧
    exec (.rdr 3) s = .next { s with RESP := some (if s.SVALID then 0x00000001 else 0x00000000) }) ∧
  (∀ (s : State) (sel : Byte), 4 ≤ sel.toNat → exec (.rdr sel) s = .next { s with RESP := some 0x00030000 }) ∧
  (∀ (s : State) (w : Word) (rest : List Move), s.Offers w rest → opField w = 0x6 →
    (rsvdField w ≠ 0 ∨ 4 ≤ (imm8Field w).toNat) → step s = .next { s with agenda := rest, RESP := some 0x00030000 })

/-- 42_control.md section 4 (R143), 10_state.md section 8 (R34): the reset values after reset and after SRST, whose response is its
own. Of `S` and `KEY`, which are unspecified, only this is claimed: PRGA and SRD, the commands that read a cell of `S`, then respond
`NOT_READY` and return none. That SRST leaves the host's own lists `agenda` and `received` is the model's (log entry 15, DEDUCED). -/
def Obligations.SrstLeavesTheResetState : Prop :=
  encode .srst = 0x70000000 ∧
  (∀ s : State, ∃ t : State, exec .srst s = .next t ∧ t.RESP = some 0x00000000 ∧
    t.KLEN = State.reset.KLEN ∧ t.I = State.reset.I ∧ t.J = State.reset.J ∧ t.SVALID = State.reset.SVALID ∧
    t.PHASE = State.reset.PHASE ∧ t.KCTR = State.reset.KCTR ∧ t.agenda = s.agenda ∧ t.received = s.received ∧
    ∀ b : Byte, exec (.srd b) t = .next { t with RESP := some 0x00020000 } ∧
      exec (.prga b) t = .next { t with RESP := some 0x00020000 }) ∧
  (State.reset.KLEN = 0 ∧ State.reset.I = 0 ∧ State.reset.J = 0 ∧ State.reset.SVALID = false ∧
    State.reset.PHASE = .idle ∧ State.reset.KCTR = 0 ∧ State.reset.RESP = none) ∧
  (∀ (s : State) (w : Word) (rest : List Move), s.Offers w rest → opField w = 0x7 →
    (rsvdField w ≠ 0 ∨ imm8Field w ≠ 0) → step s = .next { s with agenda := rest, RESP := some 0x00030000 })

/-! ### Whole-machine rules -/

/-- 60_exceptions.md R165 (with R161 to R164): every accepted word completes, and reports at most one error, `ILLEGAL` first, then
the command's own condition; every other command but KSA responds `OK`, and KSA with a key responds when its schedule ends. -/
def Obligations.EachCommandReportsItsOneCode : Prop :=
  ∀ (s : State) (w : Word) (rest : List Move), s.Inv → s.Offers w rest →
    ∃ t : State, step s = .next t ∧
      (IllegalWord w → t.RESP = some 0x00030000) ∧
      (decode w = .command .ksa → s.KLEN = 0 → t.RESP = some 0x00010000) ∧
      (decode w = .command .ksa → s.KLEN ≠ 0 → t.RESP = none ∧ t.PHASE = .ksa) ∧
      (∀ b : Byte, decode w = .command (.prga b) ∨ decode w = .command (.srd b) → s.SVALID = false →
        t.RESP = some 0x00020000) ∧
      (¬ IllegalWord w → decode w ≠ .command .ksa →
        (s.SVALID = true ∨ ∀ b : Byte, decode w ≠ .command (.prga b) ∧ decode w ≠ .command (.srd b)) →
        ∃ u : Word, t.RESP = some u ∧ codeField u = 0)

/-- 60_exceptions.md section 1 (R160): an error changes no state but the response, carries no data, and comes again when the same
command is repeated in the same state. -/
def Obligations.ErrorsChangeNothingButTheResponse : Prop :=
  ∀ (i : Instr) (s t : State) (u : Word), s.Inv → s.RESP = none → exec i s = .next t → t.RESP = some u →
    codeField u ≠ 0 → t = { s with RESP := some u } ∧ rdataField u = 0 ∧ exec i { t with RESP := none } = .next t

/-- 10_state.md section 5 (R25): `SVALID` becomes 1 only by the last KSA iteration; a step clears it only at a reset edge or by
accepting KCLR, KPUSH, KSA (a failing one too) or SRST, and each of these does clear it; the other commands leave it. -/
def Obligations.SvalidChangesOnlyWhereStated : Prop :=
  (∀ s t : State, step s = .next t → s.SVALID = false → t.SVALID = true → s.PHASE = .ksa ∧ s.KCTR = 255#8) ∧
  (∀ s t : State, step s = .next t → s.SVALID = true → t.SVALID = false →
    ∃ (m : Move) (rest : List Move), s.agenda = m :: rest ∧
      ((movePins m).rst = true ∨
        ((movePins m).cmdValid = true ∧ (outputs (movePins m).rst s).cmdReady = true ∧
          ∃ i : Instr, decode (movePins m).cmdData = .command i ∧
            (i = .kclr ∨ (∃ kb, i = .kpush kb) ∨ i = .ksa ∨ i = .srst)))) ∧
  (∀ (s t : State) (p : Pins) (e : Bool) (rest : List Move), s.agenda = .edge p e :: rest → p.rst = true →
    step s = .next t → t.SVALID = false) ∧
  (∀ (i : Instr) (s t : State), exec i s = .next t →
    ((i = .kclr ∨ (∃ kb, i = .kpush kb) ∨ i = .ksa ∨ i = .srst) → t.SVALID = false) ∧
    ((i = .nop ∨ (∃ d, i = .prga d) ∨ (∃ a, i = .srd a) ∨ ∃ sel, i = .rdr sel) → t.SVALID = s.SVALID))

/-- 10_state.md R21, R23, R24 and 20_memory.md R50, R51 (the writers of each space and register): what each command leaves
unchanged among `S`, `KEY`, `KLEN`, `I` and `J`, and that a KSA iteration leaves the key. -/
def Obligations.SpacesAndIndicesKeepTheirWriters : Prop :=
  (∀ (i : Instr) (s t : State), exec i s = .next t →
    ((i = .nop ∨ i = .ksa ∨ (∃ d, i = .prga d) ∨ (∃ a, i = .srd a) ∨ ∃ sel, i = .rdr sel) →
      t.KEY = s.KEY ∧ t.KLEN = s.KLEN) ∧
    ((i = .nop ∨ i = .kclr ∨ (∃ kb, i = .kpush kb) ∨ (∃ a, i = .srd a) ∨ ∃ sel, i = .rdr sel) →
      t.S = s.S ∧ t.I = s.I ∧ t.J = s.J)) ∧
  (∀ s t : State, engineStep s = .next t → t.KEY = s.KEY ∧ t.KLEN = s.KLEN)

/-- 20_memory.md section 1 (R51, "No command returns a key byte to the host"): the response of a command, and every other piece
of state but `KEY`, are the same whatever the cells of `KEY` hold. -/
def Obligations.ResponsesDoNotDependOnTheKeyCells : Prop :=
  ∀ (i : Instr) (s t t' : State) (K : Memory), exec i s = .next t → exec i { s with KEY := K } = .next t' →
    t'.RESP = t.RESP ∧ t' = { t with KEY := t'.KEY }

/-- 41_prga.md section 1 (R120, corner cases): the keystream byte and the state after PRGA do not depend on the data byte; the
responses to two data bytes differ as the bytes do. -/
def Obligations.KeystreamDoesNotDependOnTheData : Prop :=
  ∀ (s t t' : State) (d d' : Byte), s.SVALID = true → exec (.prga d) s = .next t → exec (.prga d') s = .next t' →
    ∃ u u' : Word, t.RESP = some u ∧ t'.RESP = some u' ∧ u ^^^ u' = (d ^^^ d').setWidth 32 ∧
      t' = { t with RESP := some u' }

/-- The canonical form of the byte memories (the model's, log entry 1): equal contents are equal data. -/
def Obligations.CanonicalMemoriesWithEqualCellsAreEqual : Prop :=
  ∀ m m' : Memory, Memory.wf m = true → Memory.wf m' = true →
    (∀ a : Byte, Memory.read m a = Memory.read m' a) → m = m'

/-- 60_exceptions.md R171: instances share nothing: a step of one leaves every other as it was, and what it does depends on
its own state alone. -/
def Obligations.InstancesShareNothing : Prop :=
  (∀ (k : Nat) (p q : Platform), platformStep k p = .next q →
    q.length = p.length ∧ ∀ j : Nat, j ≠ k → q[j]? = p[j]?) ∧
  (∀ (k : Nat) (p p' q q' : Platform), p[k]? = p'[k]? → platformStep k p = .next q → platformStep k p' = .next q' →
    q[k]? = q'[k]?) ∧
  (∀ (k : Nat) (p : Platform) (s : State), p[k]? = some s → s.Inv → ∃ q : Platform, platformStep k p = .next q)

/-! ### The source's algorithms on the engine -/

/-- 40_ksa.md section 1 (R101, which the spec marks as derived from R100 and R102): after KCLR and one KPUSH per byte the buffer
holds the first `min(L, 256)` bytes, its other cells read as before, and the responses count the bytes. -/
def Obligations.KeyLoadingHoldsTheKey : Prop :=
  ∀ (s : State) (key : List Byte) (rest : List Move), s.PHASE = .idle → s.RESP = none →
    s.agenda = hostMoves (keySequence key) ++ rest →
    ∃ t : State, Sys2Proof.core.run (2 * (1 + key.length)) s = .next t ∧
      t.KLEN.toNat = min key.length 256 ∧
      (∀ k : Nat, k < min key.length 256 → Memory.read t.KEY (BitVec.ofNat 8 k) = key[k]?) ∧
      (∀ a : Byte, key.length ≤ a.toNat → Memory.read t.KEY a = Memory.read s.KEY a) ∧
      t = { s with KEY := t.KEY, KLEN := t.KLEN, SVALID := false, agenda := rest,
                   received := s.received ++ 0x00000000 ::
                     (List.range key.length).map fun k => BitVec.ofNat 32 (min (k + 1) 256) }

/-- 40_ksa.md section 4 (R107, which the spec marks as derived), R108: a KSA on a key of 1 to 256 bytes ends, after its 256
iterations, with the source's `ksa(key)`, `I = J = 0`, `SVALID = 1` and the response `{OK, 0}`, and changes nothing else. -/
def Obligations.KeyScheduleAgreesWithTheSource : Prop :=
  ∀ (s : State) (key : List Byte) (rest : List Move), s.PHASE = .idle → s.RESP = none → key ≠ [] →
    s.KLEN.toNat = key.length → key.length ≤ 256 →
    (∀ k : Nat, k < key.length → Memory.read s.KEY (BitVec.ofNat 8 k) = key[k]?) →
    s.agenda = hostMoves [.ksa] ++ rest →
    ∃ (t : State) (T : Table), Sys2Proof.core.run (2 + 256) s = .next t ∧ sourceKsa key = some T ∧
      (∀ a : Byte, Memory.read t.S a = some (T a)) ∧
      t = { s with S := t.S, I := 0, J := 0, SVALID := true, PHASE := .idle, KCTR := 0, RESP := none, agenda := rest,
                   received := s.received ++ [0x00000000] }

/-- 40_ksa.md R103 ("Result guarantee"), R108: the source's key schedule gives a permutation of 0..255 for every key of at least
one byte, and none for the empty key. -/
def Obligations.SourceScheduleGivesAPermutation : Prop :=
  sourceKsa [] = none ∧ ∀ key : List Byte, key ≠ [] → ∃ T : Table, sourceKsa key = some T ∧ Function.Bijective T

/-- 40_ksa.md section 3 (R104 items 1 and 3, which the spec marks as derived from R103): bytes at index 256 and above never
affect the schedule, and a key and its repetition schedule alike. -/
def Obligations.KeyLengthLawsOfTheSchedule : Prop :=
  (∀ key : List Byte, 256 < key.length → sourceKsa key = sourceKsa (key.take 256)) ∧
  (∀ (key : List Byte) (m : Nat), 1 ≤ m → sourceKsa (List.replicate m key).flatten = sourceKsa key)

/-- 41_prga.md section 2 (R122, which the spec marks as derived), R127: PRGA commands, with any NOP, SRD or RDR commands between
them, return the outputs of the source's keystream loop from the indices the engine holds, one response a command, and leave
its `S`, `I` and `J`. -/
def Obligations.KeystreamAgreesWithTheSource : Prop :=
  ∀ (s : State) (T : Table) (is : List Instr) (rest : List Move), s.PHASE = .idle → s.RESP = none → s.SVALID = true →
    (∀ a : Byte, Memory.read s.S a = some (T a)) → (∀ i ∈ is, observes i = true ∨ ∃ d, i = .prga d) →
    s.agenda = hostMoves is ++ rest →
    ∃ (t : State) (rs : List Word), Sys2Proof.core.run (2 * is.length) s = .next t ∧ rs.length = is.length ∧
      messageOutputs is rs = (sourcePrga T s.I s.J (messageData is)).1 ∧
      (∀ a : Byte, Memory.read t.S a = some ((sourcePrga T s.I s.J (messageData is)).2.1 a)) ∧
      t = { s with S := t.S, I := (sourcePrga T s.I s.J (messageData is)).2.2.1,
                   J := (sourcePrga T s.I s.J (messageData is)).2.2.2, agenda := rest,
                   received := s.received ++ rs }

/-- 42_control.md R150, 30_encoding.md R85: the facade's command sequence computes the source's `cipher(key, input)` from every
idle state of the engine, so nothing of a previous call survives into the output. -/
def Obligations.FacadeComputesTheSourceCipher : Prop :=
  ∀ (s : State) (key msg : List Byte) (rest : List Move), s.PHASE = .idle → s.RESP = none → key ≠ [] →
    s.agenda = hostMoves (cipherSequence key msg) ++ rest →
    ∃ t : State, Sys2Proof.core.run (cipherSteps key msg) s = .next t ∧
      sourceCipher key msg = some (lastBytes msg.length t) ∧
      t.PHASE = .idle ∧ t.RESP = none ∧ t.SVALID = true ∧ t.agenda = rest

/-- 30_encoding.md R85, 60_exceptions.md R161, R162: with an empty key the KSA of the sequence responds `INVALID_KEY` and every
PRGA after it `NOT_READY`; no output is produced and the engine goes on. -/
def Obligations.FacadeRejectsTheEmptyKey : Prop :=
  ∀ (s : State) (msg : List Byte) (rest : List Move), s.PHASE = .idle → s.RESP = none →
    s.agenda = hostMoves (cipherSequence [] msg) ++ rest →
    sourceCipher [] msg = none ∧
    Sys2Proof.core.run (2 * (2 + msg.length)) s =
      .next { s with KLEN := 0, SVALID := false, agenda := rest,
                     received := s.received ++ 0x00000000 :: 0x00010000 :: List.replicate msg.length 0x00020000 }

/-- 42_control.md section 5 (R150): the facade host, which looks at the response of the key schedule before it goes on, reports the
source's `cipher(key, input)` for a key of at least one byte, from every idle engine whose host has no move left. It leaves the
engine idle with no response pending. The step in which the host decides is the model's (log entry 16, DESIGN CHOICE). -/
def Obligations.FacadeHostReportsTheSourceCipher : Prop :=
  ∀ (s : State) (key msg : List Byte), s.PHASE = .idle → s.RESP = none → s.agenda = [] → key ≠ [] →
    ∃ (f : Facade) (out : List Byte), facadeRun (cipherSteps key msg + 2) (facadeCall key msg s) = .next f ∧
      sourceCipher key msg = some out ∧ f.stage = .reported (.output out) ∧
      f.engine.PHASE = .idle ∧ f.engine.RESP = none ∧ f.engine.SVALID = true ∧ f.engine.agenda = []

/-- 42_control.md section 5 (R150): with an empty key the KSA responds `{INVALID_KEY, 0}`, and the host reports `InvalidKey` and
issues no PRGA, however long it runs: the two responses are those of KCLR and KSA, and nothing else of the engine changes but
`KLEN` and `SVALID`. The step in which the host decides is the model's (log entry 16, DESIGN CHOICE). -/
def Obligations.FacadeHostReportsInvalidKey : Prop :=
  ∀ (s : State) (msg : List Byte) (n : Nat), s.PHASE = .idle → s.RESP = none → s.agenda = [] →
    sourceCipher [] msg = none ∧
    facadeRun (5 + n) (facadeCall [] msg s) =
      .next { engine := { s with KLEN := 0, SVALID := false, received := s.received ++ [0x00000000, 0x00010000] }
              message := msg
              stage := .reported .invalidKey }

/-- 41_prga.md section 3 (R126, which the spec marks as derived), R128, 00_scope.md R4: running the sequence again with the same key
over the output of a run, on any idle engine, recovers the message. -/
def Obligations.CipherTwiceRecoversTheMessage : Prop :=
  ∀ (s : State) (key msg : List Byte) (rest : List Move), key ≠ [] → s.PHASE = .idle → s.RESP = none →
    s.agenda = hostMoves (cipherSequence key msg) ++ rest →
    ∃ t : State, Sys2Proof.core.run (cipherSteps key msg) s = .next t ∧
      ∀ (s' : State) (rest' : List Move), s'.PHASE = .idle → s'.RESP = none →
        s'.agenda = hostMoves (cipherSequence key (lastBytes msg.length t)) ++ rest' →
        ∃ t' : State, Sys2Proof.core.run (cipherSteps key msg) s' = .next t' ∧ lastBytes msg.length t' = msg
end

