-- ==== Sys2Proof/Laws/Memory.lean ====
section
/-! SUPPORT. The laws of the byte memories: read after write, the canonical form and that every operation keeps it, and the
identity table. -/

namespace Sys2Proof.Machine

theorem get_put_same (m : Memory) (a : Nat) (v : Byte) : Memory.get (Memory.put m a v) a = some v := by
  induction m with
  | nil => simp [Memory.put, Memory.get]
  | cons c m ih =>
    obtain ⟨b, u⟩ := c
    simp only [Memory.put]
    split
    · simp [Memory.get]
    · split
      · simp [Memory.get]
      · simp [Memory.get, *]

theorem get_put_other (m : Memory) {a b : Nat} (v : Byte) (h : b ≠ a) :
    Memory.get (Memory.put m a v) b = Memory.get m b := by
  induction m with
  | nil => simp [Memory.put, Memory.get, h]
  | cons c m ih =>
    obtain ⟨d, u⟩ := c
    simp only [Memory.put]
    split
    · simp [Memory.get, h]
    · split
      · rename_i hd
        subst hd
        simp [Memory.get, h]
      · simp [Memory.get, ih]

@[simp] theorem read_write_same (m : Memory) (a v : Byte) : Memory.read (Memory.write m a v) a = some v :=
  get_put_same m a.toNat v

theorem read_write_other (m : Memory) {a b : Byte} (v : Byte) (h : b ≠ a) :
    Memory.read (Memory.write m a v) b = Memory.read m b :=
  get_put_other m v fun e => h (BitVec.eq_of_toNat_eq e)

/-- One read after one write, both cases at once. -/
theorem read_write (m : Memory) (a b v : Byte) :
    Memory.read (Memory.write m a v) b = if b = a then some v else Memory.read m b := by
  split
  · rename_i h
    rw [h, read_write_same]
  · rename_i h
    exact read_write_other m v h

theorem risingFrom_put {m : Memory} {lo a : Nat} (v : Byte) (h : Memory.risingFrom lo m = true) (hlo : lo ≤ a)
    (ha : a < 256) : Memory.risingFrom lo (Memory.put m a v) = true := by
  induction m generalizing lo with
  | nil => simp [Memory.put, Memory.risingFrom, hlo, ha]
  | cons c m ih =>
    obtain ⟨b, u⟩ := c
    simp only [Memory.risingFrom, Config.entries, Bool.and_eq_true, decide_eq_true_eq] at h
    obtain ⟨⟨hb, hb'⟩, hm⟩ := h
    simp only [Memory.put]
    split
    · simp [Memory.risingFrom, hlo, ha, hb', hm, Nat.succ_le_of_lt ‹a < b›]
    · split
      · subst b
        simp [Memory.risingFrom, hlo, ha, hm]
      · simp [Memory.risingFrom, hb, hb', ih hm (by omega)]

/-- A write keeps the canonical form. -/
theorem wf_write {m : Memory} (h : Memory.wf m = true) (a v : Byte) : Memory.wf (Memory.write m a v) = true :=
  risingFrom_put v h (Nat.zero_le _) a.isLt

/-- Reset memory, which lists nothing, is in the canonical form. -/
@[simp] theorem wf_nil : Memory.wf [] = true := rfl

theorem risingFrom_range' (lo n : Nat) (h : lo + n ≤ 256) :
    Memory.risingFrom lo ((List.range' lo n).map fun a => (a, BitVec.ofNat 8 a)) = true := by
  induction n generalizing lo with
  | zero => rfl
  | succ n ih =>
    simp only [List.range'_succ, List.map_cons, Memory.risingFrom, Config.entries, Bool.and_eq_true, decide_eq_true_eq]
    exact ⟨⟨Nat.le_refl lo, by omega⟩, ih (lo + 1) (by omega)⟩

/-- The identity table is in the canonical form. -/
@[simp] theorem wf_identity : Memory.wf Memory.identity = true := by
  simpa [Memory.wf, Memory.identity, List.range_eq_range'] using risingFrom_range' 0 256 (by omega)

theorem get_range' (lo n a : Nat) (h : lo ≤ a) (h' : a < lo + n) :
    Memory.get ((List.range' lo n).map fun a => (a, BitVec.ofNat 8 a)) a = some (BitVec.ofNat 8 a) := by
  induction n generalizing lo with
  | zero => omega
  | succ n ih =>
    simp only [List.range'_succ, List.map_cons, Memory.get]
    split
    · rename_i e
      rw [e]
    · exact ih (lo + 1) (by omega) (by omega)

/-- Cell `a` of the identity table holds `a` (R103 step 1). -/
@[simp] theorem read_identity (a : Byte) : Memory.read Memory.identity a = some a := by
  have h := get_range' 0 256 a.toNat (Nat.zero_le _) (by have := a.isLt; omega)
  simpa [Memory.read, Memory.identity, List.range_eq_range'] using h

theorem get_below {m : Memory} {lo a : Nat} (h : Memory.risingFrom lo m = true) (ha : a < lo) : Memory.get m a = none := by
  induction m generalizing lo with
  | nil => rfl
  | cons c m ih =>
    obtain ⟨b, u⟩ := c
    simp only [Memory.risingFrom, Config.entries, Bool.and_eq_true, decide_eq_true_eq] at h
    simp [Memory.get, show a ≠ b by omega, ih h.2 (by omega)]

end Sys2Proof.Machine
end

