-- ==== Sys2Proof/Laws/State.lean ====
section
/-! SUPPORT. What each named update of the state leaves in each field, so that no proof unfolds a record update. -/

namespace Sys2Proof.Machine

@[simp] theorem respond_S (c : Code) (d : Half) (s : State) : (respond c d s).S = s.S := rfl
@[simp] theorem respond_KEY (c : Code) (d : Half) (s : State) : (respond c d s).KEY = s.KEY := rfl
@[simp] theorem respond_KLEN (c : Code) (d : Half) (s : State) : (respond c d s).KLEN = s.KLEN := rfl
@[simp] theorem respond_I (c : Code) (d : Half) (s : State) : (respond c d s).I = s.I := rfl
@[simp] theorem respond_J (c : Code) (d : Half) (s : State) : (respond c d s).J = s.J := rfl
@[simp] theorem respond_SVALID (c : Code) (d : Half) (s : State) : (respond c d s).SVALID = s.SVALID := rfl
@[simp] theorem respond_PHASE (c : Code) (d : Half) (s : State) : (respond c d s).PHASE = s.PHASE := rfl
@[simp] theorem respond_KCTR (c : Code) (d : Half) (s : State) : (respond c d s).KCTR = s.KCTR := rfl
@[simp] theorem respond_RESP (c : Code) (d : Half) (s : State) : (respond c d s).RESP = some (responseWord c d) := rfl
@[simp] theorem respond_agenda (c : Code) (d : Half) (s : State) : (respond c d s).agenda = s.agenda := rfl
@[simp] theorem respond_received (c : Code) (d : Half) (s : State) : (respond c d s).received = s.received := rfl

@[simp] theorem clearSvalid_S (s : State) : (clearSvalid s).S = s.S := rfl
@[simp] theorem clearSvalid_KEY (s : State) : (clearSvalid s).KEY = s.KEY := rfl
@[simp] theorem clearSvalid_KLEN (s : State) : (clearSvalid s).KLEN = s.KLEN := rfl
@[simp] theorem clearSvalid_I (s : State) : (clearSvalid s).I = s.I := rfl
@[simp] theorem clearSvalid_J (s : State) : (clearSvalid s).J = s.J := rfl
@[simp] theorem clearSvalid_SVALID (s : State) : (clearSvalid s).SVALID = false := rfl
@[simp] theorem clearSvalid_PHASE (s : State) : (clearSvalid s).PHASE = s.PHASE := rfl
@[simp] theorem clearSvalid_KCTR (s : State) : (clearSvalid s).KCTR = s.KCTR := rfl
@[simp] theorem clearSvalid_RESP (s : State) : (clearSvalid s).RESP = s.RESP := rfl
@[simp] theorem clearSvalid_agenda (s : State) : (clearSvalid s).agenda = s.agenda := rfl
@[simp] theorem clearSvalid_received (s : State) : (clearSvalid s).received = s.received := rfl

@[simp] theorem setSvalid_S (s : State) : (setSvalid s).S = s.S := rfl
@[simp] theorem setSvalid_KEY (s : State) : (setSvalid s).KEY = s.KEY := rfl
@[simp] theorem setSvalid_KLEN (s : State) : (setSvalid s).KLEN = s.KLEN := rfl
@[simp] theorem setSvalid_I (s : State) : (setSvalid s).I = s.I := rfl
@[simp] theorem setSvalid_J (s : State) : (setSvalid s).J = s.J := rfl
@[simp] theorem setSvalid_SVALID (s : State) : (setSvalid s).SVALID = true := rfl
@[simp] theorem setSvalid_PHASE (s : State) : (setSvalid s).PHASE = s.PHASE := rfl
@[simp] theorem setSvalid_KCTR (s : State) : (setSvalid s).KCTR = s.KCTR := rfl
@[simp] theorem setSvalid_RESP (s : State) : (setSvalid s).RESP = s.RESP := rfl
@[simp] theorem setSvalid_agenda (s : State) : (setSvalid s).agenda = s.agenda := rfl
@[simp] theorem setSvalid_received (s : State) : (setSvalid s).received = s.received := rfl

@[simp] theorem storeS_S (s : State) (a v : Byte) : (storeS s a v).S = Memory.write s.S a v := rfl
@[simp] theorem storeS_KEY (s : State) (a v : Byte) : (storeS s a v).KEY = s.KEY := rfl
@[simp] theorem storeS_KLEN (s : State) (a v : Byte) : (storeS s a v).KLEN = s.KLEN := rfl
@[simp] theorem storeS_I (s : State) (a v : Byte) : (storeS s a v).I = s.I := rfl
@[simp] theorem storeS_J (s : State) (a v : Byte) : (storeS s a v).J = s.J := rfl
@[simp] theorem storeS_SVALID (s : State) (a v : Byte) : (storeS s a v).SVALID = s.SVALID := rfl
@[simp] theorem storeS_PHASE (s : State) (a v : Byte) : (storeS s a v).PHASE = s.PHASE := rfl
@[simp] theorem storeS_KCTR (s : State) (a v : Byte) : (storeS s a v).KCTR = s.KCTR := rfl
@[simp] theorem storeS_RESP (s : State) (a v : Byte) : (storeS s a v).RESP = s.RESP := rfl
@[simp] theorem storeS_agenda (s : State) (a v : Byte) : (storeS s a v).agenda = s.agenda := rfl
@[simp] theorem storeS_received (s : State) (a v : Byte) : (storeS s a v).received = s.received := rfl

@[simp] theorem storeKey_S (s : State) (a v : Byte) : (storeKey s a v).S = s.S := rfl
@[simp] theorem storeKey_KEY (s : State) (a v : Byte) : (storeKey s a v).KEY = Memory.write s.KEY a v := rfl
@[simp] theorem storeKey_KLEN (s : State) (a v : Byte) : (storeKey s a v).KLEN = s.KLEN := rfl
@[simp] theorem storeKey_I (s : State) (a v : Byte) : (storeKey s a v).I = s.I := rfl
@[simp] theorem storeKey_J (s : State) (a v : Byte) : (storeKey s a v).J = s.J := rfl
@[simp] theorem storeKey_SVALID (s : State) (a v : Byte) : (storeKey s a v).SVALID = s.SVALID := rfl
@[simp] theorem storeKey_PHASE (s : State) (a v : Byte) : (storeKey s a v).PHASE = s.PHASE := rfl
@[simp] theorem storeKey_KCTR (s : State) (a v : Byte) : (storeKey s a v).KCTR = s.KCTR := rfl
@[simp] theorem storeKey_RESP (s : State) (a v : Byte) : (storeKey s a v).RESP = s.RESP := rfl
@[simp] theorem storeKey_agenda (s : State) (a v : Byte) : (storeKey s a v).agenda = s.agenda := rfl
@[simp] theorem storeKey_received (s : State) (a v : Byte) : (storeKey s a v).received = s.received := rfl

@[simp] theorem startSchedule_S (s : State) : (startSchedule s).S = Memory.identity := rfl
@[simp] theorem startSchedule_KEY (s : State) : (startSchedule s).KEY = s.KEY := rfl
@[simp] theorem startSchedule_KLEN (s : State) : (startSchedule s).KLEN = s.KLEN := rfl
@[simp] theorem startSchedule_I (s : State) : (startSchedule s).I = s.I := rfl
@[simp] theorem startSchedule_J (s : State) : (startSchedule s).J = 0 := rfl
@[simp] theorem startSchedule_SVALID (s : State) : (startSchedule s).SVALID = false := rfl
@[simp] theorem startSchedule_PHASE (s : State) : (startSchedule s).PHASE = .ksa := rfl
@[simp] theorem startSchedule_KCTR (s : State) : (startSchedule s).KCTR = 0 := rfl
@[simp] theorem startSchedule_RESP (s : State) : (startSchedule s).RESP = s.RESP := rfl
@[simp] theorem startSchedule_agenda (s : State) : (startSchedule s).agenda = s.agenda := rfl
@[simp] theorem startSchedule_received (s : State) : (startSchedule s).received = s.received := rfl

@[simp] theorem resetEngine_S (s : State) : (resetEngine s).S = [] := rfl
@[simp] theorem resetEngine_KEY (s : State) : (resetEngine s).KEY = [] := rfl
@[simp] theorem resetEngine_KLEN (s : State) : (resetEngine s).KLEN = 0 := rfl
@[simp] theorem resetEngine_I (s : State) : (resetEngine s).I = 0 := rfl
@[simp] theorem resetEngine_J (s : State) : (resetEngine s).J = 0 := rfl
@[simp] theorem resetEngine_SVALID (s : State) : (resetEngine s).SVALID = false := rfl
@[simp] theorem resetEngine_PHASE (s : State) : (resetEngine s).PHASE = .idle := rfl
@[simp] theorem resetEngine_KCTR (s : State) : (resetEngine s).KCTR = 0 := rfl
@[simp] theorem resetEngine_RESP (s : State) : (resetEngine s).RESP = none := rfl
@[simp] theorem resetEngine_agenda (s : State) : (resetEngine s).agenda = s.agenda := rfl
@[simp] theorem resetEngine_received (s : State) : (resetEngine s).received = s.received := rfl

@[simp] theorem offerWord_S (w : Word) (s : State) : (offerWord w s).S = s.S := rfl
@[simp] theorem offerWord_KEY (w : Word) (s : State) : (offerWord w s).KEY = s.KEY := rfl
@[simp] theorem offerWord_KLEN (w : Word) (s : State) : (offerWord w s).KLEN = s.KLEN := rfl
@[simp] theorem offerWord_I (w : Word) (s : State) : (offerWord w s).I = s.I := rfl
@[simp] theorem offerWord_J (w : Word) (s : State) : (offerWord w s).J = s.J := rfl
@[simp] theorem offerWord_SVALID (w : Word) (s : State) : (offerWord w s).SVALID = s.SVALID := rfl
@[simp] theorem offerWord_PHASE (w : Word) (s : State) : (offerWord w s).PHASE = .idle := rfl
@[simp] theorem offerWord_KCTR (w : Word) (s : State) : (offerWord w s).KCTR = s.KCTR := rfl
@[simp] theorem offerWord_RESP (w : Word) (s : State) : (offerWord w s).RESP = none := rfl
@[simp] theorem offerWord_agenda (w : Word) (s : State) : (offerWord w s).agenda = .issue w :: s.agenda := rfl
@[simp] theorem offerWord_received (w : Word) (s : State) : (offerWord w s).received = s.received := rfl

end Sys2Proof.Machine
end

