-- ==== Sys2Proof/Laws/Ops.lean ====
section
/-! SUPPORT. One lemma per shared operation that says everything it can do when it answers a next state. -/

namespace Sys2Proof.Machine

theorem fetchS_of_read {s : State} {a v : Byte} (k : Byte → Result) (h : Memory.read s.S a = some v) :
    fetchS s a k = k v := by
  simp [fetchS, h]

theorem fetchKey_of_read {s : State} {a v : Byte} (k : Byte → Result) (h : Memory.read s.KEY a = some v) :
    fetchKey s a k = k v := by
  simp [fetchKey, h]

theorem fetchS_next {s t : State} {a : Byte} {k : Byte → Result} :
    fetchS s a k = .next t ↔ ∃ v, Memory.read s.S a = some v ∧ k v = .next t := by
  unfold fetchS
  cases Memory.read s.S a <;> simp

theorem fetchKey_next {s t : State} {a : Byte} {k : Byte → Result} :
    fetchKey s a k = .next t ↔ ∃ v, Memory.read s.KEY a = some v ∧ k v = .next t := by
  unfold fetchKey
  cases Memory.read s.KEY a <;> simp

/-- The table after a swap of cells that held `x` and `y` (R57). -/
theorem read_swapped (s : State) (a b c x y : Byte) :
    Memory.read (storeS (storeS s a y) b x).S c =
      if c = b then some x else if c = a then some y else Memory.read s.S c := by
  simp [read_write]

theorem swapS_of_reads {s : State} {a b x y : Byte} (k : State → Result) (ha : Memory.read s.S a = some x)
    (hb : Memory.read s.S b = some y) : swapS s a b k = k (storeS (storeS s a y) b x) := by
  simp [swapS, fetchS, ha, hb]

theorem swapS_next {s t : State} {a b : Byte} {k : State → Result} :
    swapS s a b k = .next t ↔
      ∃ x y, Memory.read s.S a = some x ∧ Memory.read s.S b = some y ∧ k (storeS (storeS s a y) b x) = .next t := by
  simp [swapS, fetchS_next]

/-- The cell KPUSH writes is that of its index, and there is one exactly below 256 (R102). -/
theorem pushCell_eq_some {n : Count} {a : Byte} : pushCell n = some a ↔ n.toNat < 256 ∧ n.setWidth 8 = a := by
  simp [pushCell]

theorem pushCell_eq_none {n : Count} : pushCell n = none ↔ ¬ n.toNat < 256 := by
  simp [pushCell]

/-- There is a key cell exactly for a nonempty key (R10, R106). -/
theorem keyCell_eq_none {i : Byte} {n : Count} : keyCell i n = none ↔ n = 0 := by
  simp [keyCell]

theorem keyCell_eq_some {i c : Byte} {n : Count} :
    keyCell i n = some c ↔ n ≠ 0 ∧ BitVec.ofNat 8 (i.toNat % n.toNat) = c := by
  simp [keyCell]

/-- What the key buffer looks like after KPUSH: the byte appended, or nothing changed (R102). -/
theorem appendKey_cases (kb : Byte) (s : State) :
    (s.KLEN.toNat < 256 ∧ appendKey kb s =
      { s with KEY := Memory.write s.KEY (s.KLEN.setWidth 8) kb, KLEN := s.KLEN + 1 }) ∨
    (¬ s.KLEN.toNat < 256 ∧ appendKey kb s = s) := by
  by_cases h : s.KLEN.toNat < 256
  · exact .inl ⟨h, by simp [appendKey, pushCell, h, storeKey]⟩
  · exact .inr ⟨h, by simp [appendKey, pushCell, h]⟩

/-- Everything a KSA iteration can do when it answers a next state (R106). -/
theorem ksaIteration_next {s t : State} :
    ksaIteration s = .next t ↔
      ∃ c si kb sj, keyCell s.KCTR s.KLEN = some c ∧ Memory.read s.S s.KCTR = some si ∧
        Memory.read s.KEY c = some kb ∧ Memory.read s.S (s.J + si + kb) = some sj ∧
        t = endIteration s.KCTR
          (storeS (storeS { s with J := s.J + si + kb } s.KCTR sj) (s.J + si + kb) si) := by
  constructor
  · intro h
    unfold ksaIteration at h
    cases hc : keyCell s.KCTR s.KLEN with
    | none => simp [hc] at h
    | some c =>
      simp only [hc, fetchS_next, fetchKey_next, swapS_next] at h
      obtain ⟨si, hsi, kb, hkb, x, y, hx, hy, ht⟩ := h
      obtain rfl : si = x := by simpa [hsi] using hx
      exact ⟨c, si, kb, y, rfl, hsi, hkb, hy, by simpa using ht.symm⟩
  · rintro ⟨c, si, kb, sj, hc, hsi, hkb, hsj, rfl⟩
    simp [ksaIteration, hc, fetchS, fetchKey, swapS, hsi, hkb, hsj]

/-- Everything PRGA can do when it answers a next state (R120). -/
theorem execPrga_next {d : Byte} {s t : State} :
    execPrga d s = .next t ↔
      (s.SVALID = false ∧ t = respond .notReady 0 s) ∨
      (s.SVALID = true ∧ ∃ si sj x y k s1, Memory.read s.S (s.I + 1) = some si ∧
        Memory.read s.S (s.J + si) = some sj ∧
        s1 = storeS (storeS { s with I := s.I + 1, J := s.J + si } (s.I + 1) sj) (s.J + si) si ∧
        Memory.read s1.S (s.I + 1) = some x ∧ Memory.read s1.S (s.J + si) = some y ∧
        Memory.read s1.S (x + y) = some k ∧ t = respond .ok (zext16 (d ^^^ k)) s1) := by
  cases hv : s.SVALID with
  | false => simp [execPrga, hv, raiseError, eq_comm]
  | true =>
    constructor
    · intro h
      simp only [execPrga, hv, if_true, fetchS_next, swapS_next] at h
      obtain ⟨si, hsi, x, sj, hx, hsj, a, ha, b, hb, k, hk, ht⟩ := h
      obtain rfl : si = x := Option.some.inj (hsi.symm.trans hx)
      exact .inr ⟨rfl, si, sj, a, b, k, _, hsi, hsj, rfl, ha, hb, hk, by simpa using ht.symm⟩
    · rintro (⟨h, -⟩ | ⟨-, si, sj, x, y, k, s1, hsi, hsj, rfl, hx, hy, hk, rfl⟩)
      · cases h
      · simp only [execPrga, hv, if_true, fetchS_next, swapS_next]
        exact ⟨si, hsi, si, sj, hsi, hsj, x, hx, y, hy, k, hk, rfl⟩

/-- Delivery moves the held word to the host, or finds none to deliver (R30). -/
theorem deliver_next {s t : State} :
    deliver s = .next t ↔
      (s.RESP = none ∧ t = s) ∨
      ∃ w, s.RESP = some w ∧ ¬ 4#4 ≤ codeField w ∧ t = { s with RESP := none, received := s.received ++ [w] } := by
  unfold deliver
  cases hr : s.RESP with
  | none => exact ⟨fun h => .inl ⟨rfl, (Host.Outcome.next.inj h).symm⟩, by rintro (⟨-, rfl⟩ | ⟨w, h, -⟩); rfl; cases h⟩
  | some w =>
    by_cases h : 4#4 ≤ codeField w
    · simp [h]
    · constructor
      · intro e
        simp only [h, if_false] at e
        exact .inr ⟨w, rfl, h, (Host.Outcome.next.inj e).symm⟩
      · rintro (⟨e, -⟩ | ⟨u, e, -, rfl⟩)
        · cases e
        · obtain rfl := Option.some.inj e
          simp only [h, if_false]

/-- What one step does, by the host's next move (R9). -/
theorem step_eq (s : State) :
    step s = match s.agenda with
      | [] => engineStep s
      | m :: rest => clockEdge (movePins m) (moveEngine m) (if held m s then s else { s with agenda := rest }) := rfl

/-- A step at which a command is accepted (R29). -/
theorem step_accepts {s : State} {w : Word} {rest : List Move} (hp : s.PHASE = .idle) (hr : s.RESP = none)
    (ha : s.agenda = .issue w :: rest) : step s = accept w { s with agenda := rest } := by
  simp [step, agentsStep, ha, clockEdge, movePins, held, cmdReady, hp, hr]

end Sys2Proof.Machine
end

