-- ==== Sys2Proof/Laws/Step.lean ====
section
/-! SUPPORT. What one clock edge and one step can do, said once: every later proof about a step is a case split of these. -/

namespace Sys2Proof.Machine

/-- What an edge can do: reset, accept a command, deliver a response, take the engine's step, or nothing (R29, R30, R166). -/
theorem clockEdge_cases {p : Pins} {e : Bool} {s : State} {r : Result} (h : clockEdge p e s = r) :
    (p.rst = true ∧ r = .next (resetEngine s)) ∨
    (p.rst = false ∧ s.PHASE = .idle ∧ s.RESP = none ∧ p.cmdValid = true ∧ accept p.cmdData s = r) ∨
    (p.rst = false ∧ s.RESP ≠ none ∧ p.rspReady = true ∧ deliver s = r) ∨
    (p.rst = false ∧ engineStep s = r) ∨ (p.rst = false ∧ r = .next s) := by
  unfold clockEdge at h
  split at h
  · exact .inl ⟨‹_›, h.symm⟩
  rename_i h0
  replace h0 : p.rst = false := by simpa using h0
  split at h
  · rename_i hc
    simp only [cmdReady, h0, Bool.and_eq_true, beq_iff_eq, Option.isNone_iff_eq_none] at hc
    exact .inr (.inl ⟨h0, hc.2.1.1, hc.2.1.2, hc.1, h⟩)
  split at h
  · rename_i hd
    simp only [rspValid, Bool.and_eq_true, Option.isSome_iff_ne_none] at hd
    exact .inr (.inr (.inl ⟨h0, hd.2, hd.1, h⟩))
  split at h
  · exact .inr (.inr (.inr (.inl ⟨h0, h⟩)))
  · exact .inr (.inr (.inr (.inr ⟨h0, h.symm⟩)))

/-- What a step can do: it runs one of the five things an edge can do, on the state with some agenda `g` left. -/
theorem step_cases {s : State} {r : Result} (h : step s = r) :
    ∃ g : List Move,
      (r = .next (resetEngine { s with agenda := g })) ∨
      (s.PHASE = .idle ∧ s.RESP = none ∧ ∃ w, accept w { s with agenda := g } = r) ∨
      (s.RESP ≠ none ∧ deliver { s with agenda := g } = r) ∨
      (engineStep { s with agenda := g } = r) ∨ r = .next { s with agenda := g } := by
  rw [step_eq] at h
  split at h
  · exact ⟨s.agenda, .inr (.inr (.inr (.inl h)))⟩
  · rename_i m rest hag
    have key : ∃ g, (if held m s then s else { s with agenda := rest }) = { s with agenda := g } := by
      split
      · exact ⟨s.agenda, rfl⟩
      · exact ⟨rest, rfl⟩
    obtain ⟨g, hg⟩ := key
    rw [hg] at h
    refine ⟨g, ?_⟩
    rcases clockEdge_cases h with ⟨-, h⟩ | ⟨-, hp, hr, -, h⟩ | ⟨-, hr, -, h⟩ | ⟨-, h⟩ | ⟨-, h⟩
    · exact .inl h
    · exact .inr (.inl ⟨hp, hr, _, h⟩)
    · exact .inr (.inr (.inl ⟨hr, h⟩))
    · exact .inr (.inr (.inr (.inl h)))
    · exact .inr (.inr (.inr (.inr h)))

/-- No command changes what the host does next. -/
theorem exec_agenda {i : Instr} {s t : State} (h : exec i s = .next t) : t.agenda = s.agenda := by
  cases i with
  | nop => cases h; rfl
  | kclr => cases h; rfl
  | kpush kb =>
    cases h
    rcases appendKey_cases kb s with ⟨-, e⟩ | ⟨-, e⟩ <;> simp [e]
  | ksa =>
    simp only [exec, execKsa, raiseError] at h
    split at h <;> cases h <;> rfl
  | prga d =>
    rcases execPrga_next.1 h with ⟨-, rfl⟩ | ⟨-, _, _, _, _, _, _, -, -, rfl, -, -, -, rfl⟩ <;> rfl
  | srd a =>
    simp only [exec, execSrd, raiseError] at h
    split at h
    · obtain ⟨v, -, h⟩ := fetchS_next.1 h
      cases h; rfl
    · cases h; rfl
  | rdr sel =>
    simp only [exec, execRdr, raiseError] at h
    split at h <;> cases h <;> rfl
  | srst => cases h; rfl

theorem accept_agenda {w : Word} {s t : State} (h : accept w s = .next t) : t.agenda = s.agenda := by
  unfold accept at h
  split at h
  · exact exec_agenda h
  · cases h; rfl

theorem engineStep_agenda {s t : State} (h : engineStep s = .next t) : t.agenda = s.agenda := by
  unfold engineStep at h
  split at h
  · obtain ⟨_, _, _, _, -, -, -, -, rfl⟩ := ksaIteration_next.1 h
    simp only [endIteration]
    split <;> rfl
  · cases h; rfl

theorem clockEdge_agenda {p : Pins} {e : Bool} {s t : State} (h : clockEdge p e s = .next t) : t.agenda = s.agenda := by
  rcases clockEdge_cases h with ⟨-, h⟩ | ⟨-, -, -, -, h⟩ | ⟨-, -, -, h⟩ | ⟨-, h⟩ | ⟨-, h⟩
  · cases h; rfl
  · exact accept_agenda h
  · rcases deliver_next.1 h with ⟨-, rfl⟩ | ⟨_, -, -, rfl⟩ <;> rfl
  · exact engineStep_agenda h
  · cases h; rfl

/-- A step leaves the host's moves as they are, or takes the first of them. -/
theorem step_agenda_suffix {s t : State} (h : step s = .next t) : t.agenda <:+ s.agenda := by
  rw [step_eq] at h
  split at h
  · exact engineStep_agenda h ▸ List.suffix_refl _
  · rename_i m rest hg
    rw [clockEdge_agenda h]
    split
    · exact List.suffix_refl _
    · exact hg ▸ List.suffix_cons m rest

end Sys2Proof.Machine
end

