-- ==== Sys2Proof/Laws/Run.lean ====
section
/-! SUPPORT. Runs of several steps, composed from single steps. -/

namespace Sys2Proof.Machine

theorem core_run_of_step (M : Host.Core) {s t : M.State} (h : M.step s = .next t) (n : Nat) :
    M.run (n + 1) s = M.run n t := by
  simp [Host.Core.run, h]

theorem core_run_add (M : Host.Core) {s t : M.State} {m : Nat} (h : M.run m s = .next t) (n : Nat) :
    M.run (m + n) s = M.run n t := by
  induction m generalizing s with
  | zero =>
    obtain rfl : s = t := by simpa [Host.Core.run] using h
    rw [Nat.zero_add]
  | succ m ih =>
    cases hs : M.step s with
    | next u =>
      rw [core_run_of_step M hs] at h
      rw [Nat.succ_add, core_run_of_step M hs]
      exact ih h
    | fault r => simp [Host.Core.run, hs] at h
    | refused r => simp [Host.Core.run, hs] at h

@[simp] theorem run_zero (s : State) : Sys2Proof.core.run 0 s = .next s := rfl

theorem run_of_step {s t : State} (h : step s = .next t) (n : Nat) :
    Sys2Proof.core.run (n + 1) s = Sys2Proof.core.run n t :=
  core_run_of_step Sys2Proof.core h n

/-- A run of `m` steps that answers a next state, followed by `n` more. -/
theorem run_add {s t : State} {m : Nat} (h : Sys2Proof.core.run m s = .next t) (n : Nat) :
    Sys2Proof.core.run (m + n) s = Sys2Proof.core.run n t :=
  core_run_add Sys2Proof.core h n

/-- A run of `n + 1` steps that answers a next state takes a first step and then a run of `n`. -/
theorem run_succ_next {s t : State} {n : Nat} :
    Sys2Proof.core.run (n + 1) s = .next t ↔ ∃ u, step s = .next u ∧ Sys2Proof.core.run n u = .next t := by
  cases hs : step s with
  | next u => rw [run_of_step hs]; simp
  | fault r =>
    have h : Sys2Proof.core.step s = .fault r := hs
    simp [Host.Core.run, h]
  | refused r =>
    have h : Sys2Proof.core.step s = .refused r := hs
    simp [Host.Core.run, h]

/-- A run leaves a tail of the host's moves. -/
theorem run_agenda_suffix {s t : State} {n : Nat} (h : Sys2Proof.core.run n s = .next t) : t.agenda <:+ s.agenda := by
  induction n generalizing s with
  | zero => exact Host.Outcome.next.inj h ▸ List.suffix_refl _
  | succ n ih =>
    obtain ⟨u, hs, h⟩ := run_succ_next.1 h
    exact (ih h).trans (step_agenda_suffix hs)

end Sys2Proof.Machine
end

