-- ==== Sys2Proof/Laws/Facade.lean ====
section
/-! SUPPORT. What one step of a facade call can do, said once, and runs of several. -/

namespace Sys2Proof.Machine

/-- A step of a facade call decides where no move is left, and steps the engine otherwise. -/
theorem facadeStep_next {f g : Facade} :
    facadeStep f = .next g ↔
      (f.engine.agenda = [] ∧ g = facadeDecide f) ∨
      (f.engine.agenda ≠ [] ∧ ∃ t, step f.engine = .next t ∧ g = { f with engine := t }) := by
  unfold facadeStep
  cases f.engine.agenda with
  | nil => simp [eq_comm]
  | cons m rest => cases step f.engine <;> simp [eq_comm]

@[simp] theorem facadeDecide_message (f : Facade) : (facadeDecide f).message = f.message := by
  unfold facadeDecide
  split
  · split <;> rfl
  · rfl
  · rfl

theorem facadeRun_of_step {f g : Facade} (h : facadeStep f = .next g) (n : Nat) : facadeRun (n + 1) f = facadeRun n g := by
  simp [facadeRun, h]

theorem facadeRun_add {f g : Facade} {m : Nat} (h : facadeRun m f = .next g) (n : Nat) :
    facadeRun (m + n) f = facadeRun n g := by
  induction m generalizing f with
  | zero =>
    obtain rfl : f = g := by simpa [facadeRun] using h
    rw [Nat.zero_add]
  | succ m ih =>
    cases hs : facadeStep f with
    | next u =>
      rw [facadeRun_of_step hs] at h
      rw [Nat.succ_add, facadeRun_of_step hs]
      exact ih h
    | fault r => simp [facadeRun, hs] at h
    | refused r => simp [facadeRun, hs] at h

/-- While the host has a move left, a facade call steps as its engine does. -/
theorem facadeRun_of_engine_step {f : Facade} {t : State} (hg : f.engine.agenda ≠ []) (h : step f.engine = .next t) (n : Nat) :
    facadeRun (n + 1) f = facadeRun n { f with engine := t } :=
  facadeRun_of_step (facadeStep_next.2 (.inr ⟨hg, t, h, rfl⟩)) n

/-- A run of the engine that leaves a move is a run of the facade call. -/
theorem facadeRun_of_run {n : Nat} {f : Facade} {t : State} (h : Sys2Proof.core.run n f.engine = .next t) (hg : t.agenda ≠ []) :
    facadeRun n f = .next { f with engine := t } := by
  induction n generalizing f with
  | zero => exact congrArg (fun u => Host.Outcome.next { f with engine := u }) (Host.Outcome.next.inj h)
  | succ n ih =>
    obtain ⟨u, hs, h⟩ := run_succ_next.1 h
    have hu : f.engine.agenda ≠ [] := fun he =>
      hg (List.suffix_nil.1 (he ▸ (run_agenda_suffix h).trans (step_agenda_suffix hs)))
    rw [facadeRun_of_engine_step hu hs, ih h]

/-- A call that has reported stays as it is (R150: no further command is issued). -/
theorem facadeRun_reported {f : Facade} {r : FacadeReport} (hg : f.engine.agenda = []) (hs : f.stage = .reported r) (n : Nat) :
    facadeRun n f = .next f := by
  induction n with
  | zero => rfl
  | succ n ih =>
    have hf : facadeStep f = .next f := facadeStep_next.2 (.inl ⟨hg, by simp [facadeDecide, hs]⟩)
    rw [facadeRun_of_step hf, ih]

end Sys2Proof.Machine
end

