-- ==== Sys2Proof/Laws/PerInstr.lean ====
section
/-! SUPPORT. Statements about an instruction as syntax, one lemma per constructor. -/

namespace Sys2Proof.Laws.Encoding

/-- The word of a well-formed instruction selects its own row of the opcode map (R74), and carries its opcode, a zero
reserved field and its operand byte (R70). -/
def Statement (i : Instr) : Prop :=
  i.wellFormed = true → i.selectedBy (encode i) = true ∧ opField (encode i) = i.opcode ∧ rsvdField (encode i) = 0 ∧
    imm8Field (encode i) = i.imm8

theorem nop : Statement .nop := by unfold Statement; decide
theorem kclr : Statement .kclr := by unfold Statement; decide
theorem kpush (kb : Byte) : Statement (.kpush kb) := by unfold Statement; revert kb; decide
theorem ksa : Statement .ksa := by unfold Statement; decide
theorem prga (d : Byte) : Statement (.prga d) := by unfold Statement; revert d; decide
theorem srd (a : Byte) : Statement (.srd a) := by unfold Statement; revert a; decide
theorem rdr (sel : Byte) : Statement (.rdr sel) := by unfold Statement; revert sel; decide
theorem srst : Statement .srst := by unfold Statement; decide

end Sys2Proof.Laws.Encoding
end

