-- ==== Sys2Proof/Laws/Word.lean ====
section
/-! SUPPORT. The fields of a response word (30_encoding.md R76). -/

namespace Sys2Proof.Machine

@[simp] theorem codeField_responseWord (c : Code) (d : Half) : codeField (responseWord c d) = codeBits c := by
  apply BitVec.eq_of_getLsbD_eq
  intro i hi
  simp only [codeField, responseWord, BitVec.getLsbD_extractLsb', BitVec.getLsbD_append]
  simp [hi, show ¬ 16 + i < 16 by omega, show 16 + i - 16 = i by omega]

@[simp] theorem rdataField_responseWord (c : Code) (d : Half) : rdataField (responseWord c d) = d := by
  apply BitVec.eq_of_getLsbD_eq
  intro i hi
  simp only [rdataField, responseWord, BitVec.getLsbD_extractLsb', BitVec.getLsbD_append]
  simp [hi]

@[simp] theorem rrsvdField_responseWord (c : Code) (d : Half) : rrsvdField (responseWord c d) = 0 := by
  apply BitVec.eq_of_getLsbD_eq
  intro i hi
  simp only [rrsvdField, responseWord, BitVec.getLsbD_extractLsb', BitVec.getLsbD_append]
  simp [show ¬ 20 + i < 16 by omega, show ¬ 20 + i - 16 < 4 by omega]

end Sys2Proof.Machine
end

