-- ==== Sys2Proof/Laws/Safety.lean ====
section
/-! SUPPORT. The permutation property of `S` under the operations that write it, the form of response words, and what an
agenda left over does not matter to. -/

namespace Sys2Proof.Machine

/-- R22, R103 step 1: the identity table is a permutation. -/
theorem isPermutation_identity : Memory.IsPermutation Memory.identity := by
  refine ⟨fun a => ⟨a, read_identity a⟩, ?_⟩
  intro a b v ha hb
  rw [read_identity] at ha hb
  exact (Option.some.inj ha).trans (Option.some.inj hb).symm

/-- R22, R57: a swap keeps a permutation a permutation. -/
theorem isPermutation_swap {s : State} {a b x y : Byte} (h : Memory.IsPermutation s.S)
    (hx : Memory.read s.S a = some x) (hy : Memory.read s.S b = some y) :
    Memory.IsPermutation (storeS (storeS s a y) b x).S := by
  obtain ⟨h1, h2⟩ := h
  have cell : ∀ c v, Memory.read (storeS (storeS s a y) b x).S c = some v →
      ∃ d, Memory.read s.S d = some v ∧ ((c = b ∧ d = a) ∨ (c ≠ b ∧ c = a ∧ d = b) ∨ (c ≠ b ∧ c ≠ a ∧ d = c)) := by
    intro c v hc
    rw [read_swapped] at hc
    split_ifs at hc with e1 e2
    · exact ⟨a, hx.trans hc, .inl ⟨e1, rfl⟩⟩
    · exact ⟨b, hy.trans hc, .inr (.inl ⟨e1, e2, rfl⟩)⟩
    · exact ⟨c, hc, .inr (.inr ⟨e1, e2, rfl⟩)⟩
  constructor
  · intro c
    rw [read_swapped]
    split_ifs
    · exact ⟨_, rfl⟩
    · exact ⟨_, rfl⟩
    · exact h1 c
  · intro c d v hc hd
    obtain ⟨c', hc', ec⟩ := cell c v hc
    obtain ⟨d', hd', ed⟩ := cell d v hd
    have e := h2 c' d' v hc' hd'
    rcases ec with ⟨rfl, rfl⟩ | ⟨n1, rfl, rfl⟩ | ⟨n1, n2, rfl⟩ <;>
      rcases ed with ⟨rfl, rfl⟩ | ⟨m1, rfl, rfl⟩ | ⟨m1, m2, rfl⟩ <;> first | rfl | simp_all

/-- R76, R77: what `respond` writes is a response word of the stated form. -/
theorem responseOk_responseWord (c : Code) (d : Half) (h : c ≠ .ok → d = 0) : ResponseOk (responseWord c d) := by
  refine ⟨by simp, ?_, ?_⟩
  · cases c <;> simp [codeBits]
  · cases c <;> simp_all [codeBits]

/-- Every code the engine writes is one delivery accepts (R77). -/
theorem not_reservedCode (c : Code) (d : Half) : ¬ 4#4 ≤ codeField (responseWord c d) := by
  rw [codeField_responseWord]
  cases c <;> decide

/-- The invariants say nothing of what the host does next. -/
theorem inv_agenda {s : State} (h : s.Inv) (g : List Move) : ({ s with agenda := g } : State).Inv :=
  ⟨h.1, h.2, h.3, h.4, h.5, h.6, h.7, h.8, h.9, h.10, h.11⟩

/-- Delivery of a pending response to a host that is ready for one (R30). -/
theorem step_consume {s : State} {u : Word} {rest : List Move} (hr : s.RESP = some u) (hc : ¬ 4#4 ≤ codeField u)
    (ha : s.agenda = .consume :: rest) :
    step s = .next { s with RESP := none, received := s.received ++ [u], agenda := rest } := by
  rw [step_eq, ha]
  simp only [clockEdge, movePins, held, rspValid, hr]
  simp [deliver, hc]

/-- A host ready for a response that is not there waits, and the engine takes its step (R29, R30). -/
theorem step_waits {s : State} {rest : List Move} (hr : s.RESP = none) (ha : s.agenda = .consume :: rest) :
    step s = engineStep s := by
  rw [step_eq, ha]
  simp [clockEdge, movePins, held, rspValid, hr, moveEngine]

/-- A command that responds at acceptance, and the delivery of its response: two steps. -/
theorem run_issue_consume {s t : State} {w u : Word} {rest : List Move} (hp : s.PHASE = .idle) (hr : s.RESP = none)
    (ha : s.agenda = .issue w :: .consume :: rest) (he : accept w { s with agenda := .consume :: rest } = .next t)
    (hu : t.RESP = some u) (hc : ¬ 4#4 ≤ codeField u) (hg : t.agenda = .consume :: rest) :
    Sys2Proof.core.run 2 s = .next { t with RESP := none, received := t.received ++ [u], agenda := rest } := by
  rw [run_of_step ((step_accepts hp hr ha).trans he), run_of_step (step_consume hu hc hg), run_zero]

end Sys2Proof.Machine
end

