-- ==== Sys2Proof/Machine/Assembler.lean ====
section
/-! DEFINITION. The assembler: the line grammar of 30_encoding.md R82 and the pseudo-instructions of R84, from the characters of
a line to command words. What R82 and R84 leave open (white space, label characters, digit counts, where a quoted string may
stand and what it may hold) is log entry 12. -/

namespace Sys2Proof.Machine

/-- The tokens of a line. -/
inductive Token where
  /-- a mnemonic, a number, a name or a label -/
  | name (cs : List Char)
  /-- a character in single quotes: its ASCII byte -/
  | char (b : Byte)
  /-- a string in double quotes: its ASCII bytes -/
  | text (bs : List Byte)
  | colon
  | comma
  deriving DecidableEq, Repr

/-- What the lexer is inside of. -/
inductive LexState where
  | gap
  | name (cs : List Char)
  | text (bs : List Byte)
  deriving DecidableEq, Repr

/-- The byte value of an ASCII character (R84), none for another character. -/
def asciiByte (c : Char) : Option Byte :=
  if c.toNat < 128 then some (BitVec.ofNat 8 c.toNat) else none

/-- The byte value of a printable ASCII character (R82), none for another character. -/
def printableByte (c : Char) : Option Byte :=
  if 32 ≤ c.toNat ∧ c.toNat ≤ 126 then asciiByte c else none

/-- The token the lexer was building, if any. -/
def LexState.flush : LexState → List Token
  | .gap => []
  | .name cs => [.name cs]
  | .text bs => [.text bs]

/-- The characters of the name the lexer is building. -/
def LexState.nameSoFar : LexState → List Char
  | .name cs => cs
  | _ => []

/-- The tokens of a line up to its comment (R82), none where a quoted character is not printable ASCII (R82), or a quoted
string is not closed or holds a character that is not ASCII (R84). DESIGN CHOICE (log entry 12): a string may hold every ASCII
character, a control character too, but the double quote, which closes it, since R84 gives no escape. -/
def lex : LexState → List Char → Option (List Token)
  | .text _, [] => none
  | st, [] => some st.flush
  | .text bs, c :: cs =>
    if c = '"' then (lex .gap cs).map (.text bs :: ·)
    else match asciiByte c with
      | some b => lex (.text (bs ++ [b])) cs
      | none => none
  | st, '\'' :: c :: '\'' :: cs =>
    match printableByte c with
    | some b => (lex .gap cs).map (st.flush ++ .char b :: ·)
    | none => none
  | st, c :: cs =>
    if c = ';' then some st.flush
    else if c = ' ' ∨ c = '\t' then (lex .gap cs).map (st.flush ++ ·)
    else if c = ':' then (lex .gap cs).map (st.flush ++ .colon :: ·)
    else if c = ',' then (lex .gap cs).map (st.flush ++ .comma :: ·)
    else if c = '"' then (lex (.text []) cs).map (st.flush ++ ·)
    else lex (.name (st.nameSoFar ++ [c])) cs

/-- The value of a digit character in a base of at most 16. -/
def digitValue (base : Nat) (c : Char) : Option Nat :=
  let n := c.toNat
  let d := if 48 ≤ n ∧ n ≤ 57 then n - 48
    else if 65 ≤ n ∧ n ≤ 70 then n - 55
    else if 97 ≤ n ∧ n ≤ 102 then n - 87
    else 16
  if d < base then some d else none

/-- The number that digit characters write, continuing from `acc`. -/
def digitsValue (base : Nat) : Nat → List Char → Option Nat
  | acc, [] => some acc
  | acc, c :: cs => (digitValue base c).bind fun d => digitsValue base (acc * base + d) cs

/-- `byte` without the quoted form: decimal 0..255 or `0x` and two hexadecimal digits (R82). -/
def numberByte (cs : List Char) : Option Byte :=
  match cs with
  | '0' :: 'x' :: hs => if hs.length = 2 then (digitsValue 16 0 hs).map (BitVec.ofNat 8) else none
  | _ =>
    if cs.length = 0 ∨ 3 < cs.length then none
    else (digitsValue 10 0 cs).bind fun n => if n < 256 then some (BitVec.ofNat 8 n) else none

/-- `word32`: `0x` and 1 to 8 hexadecimal digits (R82). -/
def numberWord (cs : List Char) : Option Word :=
  match cs with
  | '0' :: 'x' :: hs =>
    if hs.length = 0 ∨ 8 < hs.length then none else (digitsValue 16 0 hs).map (BitVec.ofNat 32)
  | _ => none

/-- `byte` (R82): a number or one character in single quotes. -/
def tokenByte : Token → Option Byte
  | .name cs => numberByte cs
  | .char b => some b
  | .text _ => none
  | .colon => none
  | .comma => none

/-- `selector` (R82): a register name or a byte 0..3. -/
def tokenSelector : Token → Option Byte
  | .name ['I'] => some 0
  | .name ['J'] => some 1
  | .name ['K', 'L', 'E', 'N'] => some 2
  | .name ['S', 'T', 'A', 'T', 'U', 'S'] => some 3
  | t => (tokenByte t).bind fun b => if b < 4#8 then some b else none

/-- One item of a pseudo-instruction's list: a byte, or the bytes of a quoted string. R84 names the string for KEY, and the
programs of 95_test_vectors.md write one for INIT and for the key of CIPHER. DESIGN CHOICE (log entry 12): it may also be an item
of XOR and of the message of CIPHER, and strings and bytes may stand in one list. -/
def tokenBytes : Token → Option (List Byte)
  | .text bs => some bs
  | t => (tokenByte t).map fun b => [b]

/-- The items of a comma-separated list (R84). -/
def tokenItems : List Token → Option (List (List Byte))
  | [] => some []
  | [t] => (tokenBytes t).map fun bs => [bs]
  | t :: .comma :: u :: ts =>
    (tokenBytes t).bind fun bs => (tokenItems (u :: ts)).map fun rest => bs :: rest
  | _ => none

/-- The number of KSTREAM: decimal digits (R84). -/
def tokenCount : List Token → Option Nat
  | [.name cs] => if cs.length = 0 then none else digitsValue 10 0 cs
  | _ => none

/-- A command without operand (R82). -/
def bareCommand (i : Instr) (ts : List Token) : Option (List Word) :=
  if ts = [] then some [encode i] else none

/-- A command with one byte or selector operand (R82). -/
def byteCommand (operand : Token → Option Byte) (mk : Byte → Instr) : List Token → Option (List Word)
  | [t] => (operand t).map fun b => [encode (mk b)]
  | _ => none

/-- The words of a pseudo-instruction (R84). -/
def pseudoWords (p : Pseudo) : List Word := p.expand.map encode

/-- CIPHER: the first item of the list is the key, the others are the message (R84). DESIGN CHOICE (log entry 12): where the
key ends, and that an item of the message may be a quoted string. -/
def cipherItems : List (List Byte) → Option (List Word)
  | [] => none
  | k :: ms => some (pseudoWords (.cipher k ms.flatten))

/-- `command` (R82) or a pseudo-instruction (R84), or nothing: the words it emits. The operands of XOR and CIPHER may be quoted
strings, as those of KEY and INIT (DESIGN CHOICE, log entry 12). -/
def assembleCommand : List Token → Option (List Word)
  | [] => some []
  | .name ['N', 'O', 'P'] :: ts => bareCommand .nop ts
  | .name ['K', 'C', 'L', 'R'] :: ts => bareCommand .kclr ts
  | .name ['K', 'S', 'A'] :: ts => bareCommand .ksa ts
  | .name ['S', 'R', 'S', 'T'] :: ts => bareCommand .srst ts
  | .name ['K', 'P', 'U', 'S', 'H'] :: ts => byteCommand tokenByte .kpush ts
  | .name ['P', 'R', 'G', 'A'] :: ts => byteCommand tokenByte .prga ts
  | .name ['S', 'R', 'D'] :: ts => byteCommand tokenByte .srd ts
  | .name ['R', 'D', 'R'] :: ts => byteCommand tokenSelector .rdr ts
  | [.name ['.', 'w', 'o', 'r', 'd'], .name cs] => (numberWord cs).map fun w => [w]
  | .name ['K', 'E', 'Y'] :: ts => (tokenItems ts).map fun bs => pseudoWords (.key bs.flatten)
  | .name ['I', 'N', 'I', 'T'] :: ts => (tokenItems ts).map fun bs => pseudoWords (.init bs.flatten)
  | .name ['X', 'O', 'R'] :: ts => (tokenItems ts).map fun bs => pseudoWords (.xor bs.flatten)
  | .name ['K', 'S', 'T', 'R', 'E', 'A', 'M'] :: ts => (tokenCount ts).map fun n => pseudoWords (.kstream n)
  | .name ['C', 'I', 'P', 'H', 'E', 'R'] :: ts => (tokenItems ts).bind cipherItems
  | _ => none

/-- `line` (R82): an optional label, which marks a position and emits nothing, an optional command, an optional comment. -/
def assembleLine (line : List Char) : Option (List Word) :=
  match lex .gap line with
  | none => none
  | some (.name _ :: .colon :: ts) => assembleCommand ts
  | some ts => assembleCommand ts

/-- A command stream, one command per line (R82): the words in order, none where a line is not of the grammar. -/
def assemble : List (List Char) → Option (List Word)
  | [] => some []
  | l :: ls => (assembleLine l).bind fun ws => (assemble ls).map fun rest => ws ++ rest

end Sys2Proof.Machine
end

