-- ==== Sys2Proof/Tests/Slice0.lean ====
section
/-! SUPPORT. Tests with results taken from spec/ (95_test_vectors.md where an id is given), and a witness for the hypotheses of
each statement. -/

namespace Sys2Proof.Tests
open Sys2Proof Sys2Proof.Machine

/-- One or more fields of a next state, none where there is no next state. -/
def field {α : Type} (f : State → α) : Result → Option α
  | .next t => some (f t)
  | .fault _ => none
  | .refused _ => none

/-- The machine after reset with one command word offered. -/
def offering (w : Word) : State := { State.reset with agenda := [.issue w] }

/-- A valid cipher state on the identity table, with the one-byte key 4B held. -/
def valid : State := { State.reset with S := Memory.identity, KEY := [(0, 0x4B)], KLEN := 1, SVALID := true }

/-- A key schedule about to perform its first iteration, with the key "Key" (T-KSA-1), and the two cells that iteration reads. -/
def scheduling : State :=
  { State.reset with S := [(0, 0), (75, 75)], KEY := [(0, 0x4B), (1, 0x65), (2, 0x79)], KLEN := 3, PHASE := .ksa }

/-- A key schedule about to perform its last iteration, on a table with `S[255] = 255` and a key byte 0. -/
def finishing : State :=
  { State.reset with S := [(255, 255)], KEY := [(0, 0)], KLEN := 1, PHASE := .ksa, KCTR := 255 }

/-- Three cells of the end state of T-KSA-1 (key "Key"): those its first PRGA reads. -/
def keyed : State :=
  { State.reset with S := [(1, 0x33), (51, 0x4E), (129, 0xEB)], KEY := [(0, 0x4B), (1, 0x65), (2, 0x79)], KLEN := 3, SVALID := true }

/-! ### Well-formedness (R73) -/

theorem test_wellFormed_refuses_selector_4 : (Instr.rdr 4).wellFormed = false := by decide
theorem test_wellFormed_allows_selector_3 : (Instr.rdr 3).wellFormed = true := by decide

/-! ### Decoding: words written out from R70 and R74 -/

theorem test_decode_nop : decode 0b0000_00000000000000000000_00000000#32 = .command .nop := by decide
theorem test_decode_kclr : decode 0b0001_00000000000000000000_00000000#32 = .command .kclr := by decide
theorem test_decode_kpush : decode 0b0010_00000000000000000000_01001011#32 = .command (.kpush 75) := by decide
theorem test_decode_ksa : decode 0b0011_00000000000000000000_00000000#32 = .command .ksa := by decide
theorem test_decode_prga : decode 0b0100_00000000000000000000_01010000#32 = .command (.prga 80) := by decide
theorem test_decode_srd : decode 0b0101_00000000000000000000_11111110#32 = .command (.srd 254) := by decide
theorem test_decode_rdr : decode 0b0110_00000000000000000000_00000010#32 = .command (.rdr 2) := by decide
theorem test_decode_srst : decode 0b0111_00000000000000000000_00000000#32 = .command .srst := by decide

/-- T-CTL-10, T-CTL-2, T-CTL-8, T-KEY-8, T-KEY-9, T-PRGA-11, T-KSA-9. -/
theorem test_decode_illegal :
    decode 0x80000000 = .illegal .reservedOpcode ∧ decode 0xF00000FF = .illegal .reservedOpcode ∧
    decode 0x00000001 = .illegal .unusedOperand ∧ decode 0x60000004 = .illegal .selector ∧
    decode 0x10000001 = .illegal .unusedOperand ∧ decode 0x20000100 = .illegal .reservedField ∧
    decode 0x40010050 = .illegal .reservedField ∧ decode 0x30000001 = .illegal .unusedOperand := by decide

/-- The examples of R83. -/
theorem test_encode_examples :
    encode (.kpush 0x4B) = 0x2000004B ∧ encode (.prga 0x50) = 0x40000050 ∧ encode (.rdr 1) = 0x60000001 ∧
    encode (.srd 255) = 0x500000FF := by decide

theorem test_decodeTableWord : decodeTableWord 32 0x2000004B = some (.kpush 0x4B) ∧ decodeTableWord 32 0x60000004 = none := by decide

theorem test_withFetchWord_runs_it :
    field (fun t => (t.KEY, t.KLEN)) (step (State.reset.withFetchWord 32 0x2000004B)) = some ([(0, 0x4B)], 1) := by decide

/-- R54: both orders of a transport. -/
theorem test_transport :
    wordToBytes .little 0x2000004B = [0x4B, 0x00, 0x00, 0x20] ∧
    decodeBytes .big [0x20, 0x00, 0x00, 0x4B, 0x07] = some (.command (.kpush 0x4B), [0x07]) ∧
    decodeBytes .big [0x20, 0x00, 0x00] = none := by decide

/-! ### Commands -/

/-- T-KEY-1. -/
theorem test_kpush_first :
    field (fun t => (t.KEY, t.KLEN, t.SVALID, t.RESP)) (step (offering 0x2000004B)) =
      some ([(0, 0x4B)], 1, false, some 0x00000001) := by decide

/-- T-KEY-4: with 256 bytes held the byte is discarded. -/
theorem test_kpush_full :
    field (fun t => (t.KEY, t.KLEN, t.RESP)) (exec (.kpush 7) { valid with KLEN := 256 }) =
      some ([(0, 0x4B)], 256, some 0x00000100) := by decide

/-- T-KEY-6. -/
theorem test_kclr :
    field (fun t => (t.KLEN, t.SVALID, t.RESP)) (exec .kclr { State.reset with KLEN := 3, SVALID := true }) =
      some (0, false, some 0x00000000) := by decide

/-- T-KSA-8. -/
theorem test_ksa_empty_key : field (fun t => (t.RESP, t.PHASE)) (step (offering 0x30000000)) = some (some 0x00010000, .idle) := by decide

/-- R105: at acceptance. -/
theorem test_ksa_starts :
    field (fun t => (Memory.read t.S 200, t.J, t.PHASE, t.SVALID, t.RESP)) (exec .ksa valid) =
      some (some 200, 0, .ksa, false, none) := by decide

/-- T-KSA-1, row `i = 0`. -/
theorem test_iteration_first :
    field (fun t => (t.S, t.J, t.KCTR, t.PHASE)) (step scheduling) = some ([(0, 75), (75, 0)], 75, 1, .ksa) := by decide

/-- R106, `i = 255`: the new `J` equals `i`, the swap changes nothing and the schedule completes. -/
theorem test_iteration_last :
    field (fun t => (t.S, t.J, t.KCTR, t.RESP)) (step finishing) = some ([(255, 255)], 0, 0, some 0x00000000) ∧
    field (fun t => (t.SVALID, t.PHASE)) (step finishing) = some (true, .idle) := by decide

/-- T-PRGA-1. -/
theorem test_prga_first :
    field (fun t => (t.I, t.J, t.S, t.RESP)) (exec (.prga 0x50) keyed) =
      some (1, 51, [(1, 0x4E), (51, 0x33), (129, 0xEB)], some 0x000000BB) := by decide

/-- T-PRGA-9. -/
theorem test_prga_not_ready : field (fun t => t.RESP) (step (offering 0x40000041)) = some (some 0x00020000) := by decide

/-- T-CTL-5, and an entry of T-KSA-1. -/
theorem test_srd :
    field (fun t => t.RESP) (step (offering 0x50000000)) = some (some 0x00020000) ∧
    field (fun t => (t.RESP, t.I)) (exec (.srd 129) keyed) = some (some 0x000000EB, 0) := by decide

/-- T-CTL-7, and P1's `RDR I`, `RDR J` after nine bytes. -/
theorem test_rdr :
    field (fun t => t.RESP) (exec (.rdr 2) keyed) = some (some 0x00000003) ∧
    field (fun t => t.RESP) (exec (.rdr 3) keyed) = some (some 0x00000001) ∧
    field (fun t => t.RESP) (exec (.rdr 0) { keyed with I := 9, J := 222 }) = some (some 0x00000009) ∧
    field (fun t => t.RESP) (exec (.rdr 1) { keyed with I := 9, J := 222 }) = some (some 0x000000DE) := by decide

/-- T-CTL-9. -/
theorem test_srst :
    field (fun t => (t.KLEN, t.SVALID, t.I, t.J, t.RESP)) (exec .srst { keyed with I := 9, J := 222 }) =
      some (0, false, 0, 0, some 0x00000000) := by decide

/-- T-CTL-1. -/
theorem test_nop : field (fun t => (t.RESP, t.KLEN)) (exec .nop keyed) = some (some 0x00000000, 3) := by decide

/-- T-CTL-11: a command offered during a schedule is held, and the schedule goes on. -/
theorem test_busy_holds_the_command :
    field (fun t => (t.agenda, t.KCTR, t.RESP)) (step { scheduling with agenda := [.issue 0] }) =
      some ([.issue 0], 1, none) := by decide

/-- T-CTL-12. -/
theorem test_reset_during_schedule :
    field (fun t => (t.PHASE, t.KLEN, t.RESP, t.agenda)) (step { scheduling with KCTR := 100, agenda := [.reset] }) =
      some (.idle, 0, none, []) := by decide

/-- R192: at the end of a run the observation holds the responses, and what SRD and RDR would return. -/
theorem test_observation :
    ({ keyed with received := [0xBB], I := 9 } : State).ended = true ∧
    ({ keyed with received := [0xBB], I := 9 } : State).observation.responses = [0xBB] ∧
    ({ keyed with received := [0xBB], I := 9 } : State).observation.registers = [some 9, some 0, some 3, some 1] ∧
    (keyed.observation.entries.drop 50).take 2 = [none, some 0x4E] := by decide

/-! ### Assembler (R82 to R84) -/

theorem test_assemble_kpush_char : assembleLine ['K', 'P', 'U', 'S', 'H', ' ', '\'', 'K', '\'', ' ', ';', ' ', 'x'] = some [0x2000004B] := by decide
theorem test_assemble_label_rdr : assembleLine ['a', ':', ' ', 'R', 'D', 'R', ' ', 'J'] = some [0x60000001] := by decide
theorem test_assemble_word : assembleLine ['.', 'w', 'o', 'r', 'd', ' ', '0', 'x', '8', '0', '0', '0', '0', '0', '0', '0'] = some [0x80000000] := by decide
theorem test_assemble_out_of_range : assembleLine ['S', 'R', 'D', ' ', '2', '5', '6'] = none := by decide
theorem test_assemble_cipher :
    assembleLine ['C', 'I', 'P', 'H', 'E', 'R', ' ', '"', 'K', 'e', '"', ',', ' ', '0', 'x', 'B', 'B'] =
      some [0x10000000, 0x2000004B, 0x20000065, 0x30000000, 0x400000BB] := by decide

/-- R84: a quoted string holds ASCII characters. -/
theorem test_assemble_string :
    assembleLine ['K', 'E', 'Y', ' ', '"', 'a', '\t', '"'] = some [0x10000000, 0x20000061, 0x20000009] ∧
    assembleLine ['K', 'E', 'Y', ' ', '"', 'é', '"'] = none := by decide

/-! ### The facade host (R150) -/

/-- After `INVALID_KEY` the host reports `InvalidKey` and issues no PRGA; after `OK` it issues the message. -/
theorem test_facade_decides :
    facadeDecide ⟨{ State.reset with received := [0, 0x00010000] }, [0x50], .initialising⟩ =
      ⟨{ State.reset with received := [0, 0x00010000] }, [0x50], .reported .invalidKey⟩ ∧
    (facadeDecide ⟨{ State.reset with received := [0, 1, 0] }, [0x50], .initialising⟩).engine.agenda =
      [.issue 0x40000050, .consume] := by decide

/-- The output bytes are those of the PRGA responses, in order (P2's first two). -/
theorem test_facade_reports :
    (facadeDecide ⟨{ State.reset with received := [0, 1, 0, 0x50, 0x6C] }, [0xBB, 0xF3], .applying⟩).stage =
      .reported (.output [0x50, 0x6C]) := by decide

/-! ### Witnesses: states that meet the hypotheses of the statements -/

theorem valid_inv : valid.Inv where
  klen_le := by decide
  svalid_permutation := fun _ => isPermutation_identity
  ksa_quiet := by intro h; cases h
  resp_idle := fun _ => rfl
  key_written := by
    intro k hk
    obtain rfl : k = 0 := by simpa [valid] using hk
    exact ⟨0x4B, rfl⟩
  empty_invalid := by intro h; exact absurd h (by decide)
  ksa_permutation := by intro h; cases h
  s_wf := wf_identity
  key_wf := rfl
  resp_ok := by intro w h; cases h
  received_ok := by intro w h; cases h

/-- A busy engine that meets the invariants. -/
def busy : State := { valid with SVALID := false, PHASE := .ksa }

theorem busy_inv : busy.Inv where
  klen_le := by decide
  svalid_permutation := by intro h; cases h
  ksa_quiet := fun _ => ⟨rfl, rfl, by decide⟩
  resp_idle := by intro h; exact absurd rfl h
  key_written := valid_inv.key_written
  empty_invalid := fun _ => rfl
  ksa_permutation := fun _ => isPermutation_identity
  s_wf := wf_identity
  key_wf := rfl
  resp_ok := by intro w h; cases h
  received_ok := by intro w h; cases h

/-- An engine that holds a response and meets the invariants. -/
def answering : State := { valid with RESP := some 0x000000BB }

theorem answering_inv : answering.Inv :=
  { valid_inv with
    ksa_quiet := by intro h; cases h
    resp_idle := fun _ => rfl
    resp_ok := by intro w h; obtain rfl := Option.some.inj h; unfold ResponseOk; decide }

theorem witness_DecodeOfEncodeIsTheCommand : (Instr.rdr 3).wellFormed = true ∧ (Instr.kpush 255).wellFormed = true := by decide
theorem witness_EncodeOfDecodeIsTheWord : decode 0x60000003 = .command (.rdr 3) := by decide
theorem witness_OpcodeMapRowsSelectTheCommands : (0xF00000FF : Word) &&& 0x80000000 = 0x80000000 := by decide
theorem witness_IllegalWordsRespondIllegal :
    (offering 0x30000001).Offers 0x30000001 [] ∧ IllegalWord 0x30000001 := by
  unfold State.Offers IllegalWord; decide
theorem witness_StepRunsTheDecodedCommand :
    (offering 0x70000000).Offers 0x70000000 [] ∧ decode 0x70000000 = .command .srst := by
  unfold State.Offers; decide
theorem witness_StepRunsTheDecodedCommand_at_an_edge :
    ({ State.reset with agenda := [.edge { cmdValid := true, cmdData := 0x10000000 } false] } : State).agenda =
      [.edge { cmdValid := true, cmdData := 0x10000000 } false] ∧ decode 0x10000000 = .command .kclr := by decide
theorem witness_CommandsAreAcceptedExactlyWhenReady :
    (outputs false busy).cmdReady = false ∧ (outputs false valid).cmdReady = true ∧
    ¬ (scheduling.PHASE = .idle ∧ scheduling.RESP = none) := by decide
theorem witness_ResponsesAreDeliveredOnceAndInOrder :
    answering.RESP = some 0x000000BB ∧ ResponseOk 0x000000BB ∧ answering.PHASE = .idle ∧
    ({ answering with agenda := [.consume] } : State).agenda = [.consume] := by
  unfold ResponseOk; decide
theorem witness_ResponsesAreDeliveredOnceAndInOrder_at_an_edge :
    answering.RESP = some 0x000000BB ∧ ResponseOk 0x000000BB ∧
    ({ answering with agenda := [.edge { rspReady := true } false] } : State).agenda = [.edge { rspReady := true } false] ∧
    ({ rspReady := true } : Pins).rst = false ∧ ({ rspReady := true } : Pins).rspReady = true := by
  unfold ResponseOk; decide
theorem witness_ResponsesAreDeliveredOnceAndInOrder_stuck :
    ({ answering with agenda := [.issue 0x00000000] } : State).PHASE = .idle ∧
    ({ answering with agenda := [.issue 0x00000000] } : State).RESP = some 0x000000BB ∧
    ({ answering with agenda := [.issue 0x00000000] } : State).agenda = [.issue 0x00000000] := by decide
theorem witness_BusyEngineShowsNothing :
    busy.Inv ∧ (outputs false busy).busy = true ∧ answering.Inv ∧ (outputs false answering).rspValid = true :=
  ⟨busy_inv, by decide, answering_inv, by decide⟩
theorem witness_ResetWinsOverEverything :
    ({ scheduling with agenda := [.reset] } : State).agenda = [.edge { rst := true } false] := by decide
theorem witness_EveryStepKeepsTheInvariants : valid.Inv ∧ ∃ t, step valid = .next t := ⟨valid_inv, _, rfl⟩
theorem witness_NoRunFaults : busy.Inv ∧ valid.Inv := ⟨busy_inv, valid_inv⟩
theorem witness_EveryScheduleEndsWithin256Steps : busy.Inv ∧ busy.PHASE = .ksa ∧ busy.KCTR = 0 := ⟨busy_inv, rfl, rfl⟩
theorem witness_NopOnlyResponds :
    (offering 0x00000001).Offers 0x00000001 [] ∧ opField 0x00000001 = 0 ∧ imm8Field 0x00000001 ≠ 0 := by
  unfold State.Offers; decide
theorem witness_KclrEmptiesTheKey :
    (∃ t, exec .kclr valid = .next t) ∧ (offering 0x10000100).Offers 0x10000100 [] ∧ opField 0x10000100 = 1 ∧
    rsvdField 0x10000100 ≠ 0 := by
  refine ⟨⟨_, rfl⟩, ?_⟩
  unfold State.Offers; decide
theorem witness_KpushAppendsTheKeyByte :
    ({ valid with KLEN := 255 } : State).KLEN.toNat < 256 ∧ ¬ ({ valid with KLEN := 256 } : State).KLEN.toNat < 256 ∧
    (offering 0x28000000).Offers 0x28000000 [] ∧ opField 0x28000000 = 2 ∧ rsvdField 0x28000000 ≠ 0 := by
  unfold State.Offers; decide
theorem witness_KsaStartsTheSchedule :
    State.reset.KLEN = 0 ∧ valid.KLEN ≠ 0 ∧ (offering 0x300000FF).Offers 0x300000FF [] ∧ opField 0x300000FF = 3 ∧
    imm8Field 0x300000FF ≠ 0 := by
  unfold State.Offers; decide
theorem witness_KsaIterationSwapsAndAdvances :
    scheduling.PHASE = .ksa ∧ scheduling.KLEN ≠ 0 ∧ Memory.read scheduling.S scheduling.KCTR = some 0 ∧
    Memory.read scheduling.KEY (BitVec.ofNat 8 (scheduling.KCTR.toNat % scheduling.KLEN.toNat)) = some 0x4B ∧
    Memory.read scheduling.S (scheduling.J + 0 + 0x4B) = some 75 ∧ scheduling.KCTR ≠ 255#8 := by decide
theorem witness_KsaIterationSwapsAndAdvances_last :
    finishing.PHASE = .ksa ∧ finishing.KLEN ≠ 0 ∧ Memory.read finishing.S finishing.KCTR = some 255 ∧
    Memory.read finishing.KEY (BitVec.ofNat 8 (finishing.KCTR.toNat % finishing.KLEN.toNat)) = some 0 ∧
    Memory.read finishing.S (finishing.J + 255 + 0) = some 255 ∧ finishing.KCTR = 255#8 ∧ valid.PHASE ≠ .ksa := by decide
theorem valid_readable (a : Byte) : ∃ v, Memory.read valid.S a = some v := ⟨a, read_identity a⟩
theorem witness_PrgaReturnsTheCombinedByte :
    State.reset.SVALID = false ∧ valid.SVALID = true ∧ (∀ a : Byte, ∃ v, Memory.read valid.S a = some v) ∧
    (offering 0x40010050).Offers 0x40010050 [] ∧ opField 0x40010050 = 4 ∧ rsvdField 0x40010050 ≠ 0 := by
  refine ⟨rfl, rfl, valid_readable, ?_⟩
  unfold State.Offers; decide
theorem witness_SrdReadsTheEntry_valid : valid.Inv ∧ valid.SVALID = true := ⟨valid_inv, rfl⟩
theorem witness_SrdReadsTheEntry :
    State.reset.SVALID = false ∧ keyed.SVALID = true ∧ Memory.read keyed.S 129 = some 0xEB ∧
    (offering 0x50000100).Offers 0x50000100 [] ∧ opField 0x50000100 = 5 ∧ rsvdField 0x50000100 ≠ 0 := by
  unfold State.Offers; decide
theorem witness_RdrReadsTheRegister :
    4 ≤ (4 : Byte).toNat ∧ 4 ≤ (255 : Byte).toNat ∧ (offering 0x60000004).Offers 0x60000004 [] ∧ opField 0x60000004 = 6 ∧
    4 ≤ (imm8Field 0x60000004).toNat := by
  unfold State.Offers; decide
theorem witness_SrstLeavesTheResetState :
    (offering 0x70000001).Offers 0x70000001 [] ∧ opField 0x70000001 = 7 ∧ imm8Field 0x70000001 ≠ 0 := by
  unfold State.Offers; decide
theorem witness_EachCommandReportsItsOneCode :
    ({ valid with agenda := [.issue 0x50000000] } : State).Inv ∧
    ({ valid with agenda := [.issue 0x50000000] } : State).Offers 0x50000000 [] ∧
    decode 0x50000000 = .command (.srd 0) ∧ decode 0x30000000 = .command .ksa ∧ valid.KLEN ≠ 0 :=
  ⟨inv_agenda valid_inv _, ⟨rfl, rfl, rfl⟩, by decide, by decide, by decide⟩

/-- A machine with no valid state that meets the invariants: `SVALID = 0` with a key held. -/
def unready : State := { valid with SVALID := false }

theorem unready_inv : unready.Inv :=
  { valid_inv with
    svalid_permutation := by intro h; cases h
    ksa_quiet := by intro h; cases h
    resp_idle := fun _ => rfl
    empty_invalid := fun _ => rfl }

theorem witness_ErrorsChangeNothingButTheResponse :
    unready.Inv ∧ unready.RESP = none ∧
    ∃ t, exec (.prga 1) unready = .next t ∧ t.RESP = some 0x00020000 ∧ codeField 0x00020000 ≠ 0 :=
  ⟨unready_inv, rfl, _, rfl, by decide, by decide⟩
theorem witness_SvalidChangesOnlyWhereStated :
    (∃ t, step finishing = .next t ∧ finishing.SVALID = false ∧ t.SVALID = true) ∧
    (∃ t, exec .kclr valid = .next t) ∧ ∃ t, exec .nop valid = .next t :=
  ⟨⟨_, rfl, rfl, by decide⟩, ⟨_, rfl⟩, ⟨_, rfl⟩⟩
theorem witness_SvalidChangesOnlyWhereStated_cleared :
    (∃ t, step { valid with agenda := [.issue 0x10000000] } = .next t ∧ valid.SVALID = true ∧ t.SVALID = false) ∧
    ∃ t, step { valid with agenda := [.reset] } = .next t ∧ ({ rst := true } : Pins).rst = true ∧ t.SVALID = false :=
  ⟨⟨_, rfl, rfl, rfl⟩, _, rfl, rfl, rfl⟩
theorem witness_SpacesAndIndicesKeepTheirWriters :
    (∃ t, exec .ksa valid = .next t) ∧ (∃ t, exec (.kpush 1) valid = .next t) ∧ ∃ t, engineStep scheduling = .next t :=
  ⟨⟨_, rfl⟩, ⟨_, rfl⟩, ⟨_, rfl⟩⟩
theorem witness_ResponsesDoNotDependOnTheKeyCells :
    (∃ t, exec (.prga 0x50) keyed = .next t) ∧ ∃ t, exec (.prga 0x50) { keyed with KEY := [(0, 1)] } = .next t :=
  ⟨⟨_, rfl⟩, ⟨_, rfl⟩⟩
theorem witness_KeystreamDoesNotDependOnTheData :
    keyed.SVALID = true ∧ (∃ t, exec (.prga 0x00) keyed = .next t) ∧ ∃ t, exec (.prga 0xFF) keyed = .next t :=
  ⟨rfl, ⟨_, rfl⟩, ⟨_, rfl⟩⟩
theorem witness_CanonicalMemoriesWithEqualCellsAreEqual :
    Memory.wf (Memory.write (Memory.write [] 5 1) 2 3) = true ∧ Memory.wf (Memory.write (Memory.write [] 2 3) 5 1) = true ∧
    ∀ a : Byte, Memory.read (Memory.write (Memory.write [] 5 1) 2 3) a = Memory.read (Memory.write (Memory.write [] 2 3) 5 1) a := by
  decide
theorem witness_InstancesShareNothing :
    (∃ q, platformStep 0 [valid, busy] = .next q) ∧ (∃ q, platformStep 0 [valid] = .next q) ∧
    ([valid, busy] : Platform)[0]? = ([valid] : Platform)[0]? ∧ ([valid, busy] : Platform)[0]? = some valid ∧ valid.Inv :=
  ⟨⟨_, rfl⟩, ⟨_, rfl⟩, rfl, rfl, valid_inv⟩
theorem witness_KeyLoadingHoldsTheKey :
    ({ valid with agenda := hostMoves (keySequence [1, 2]) } : State).PHASE = .idle ∧ valid.RESP = none ∧
    ({ valid with agenda := hostMoves (keySequence [1, 2]) } : State).agenda = hostMoves (keySequence [1, 2]) ++ [] :=
  ⟨rfl, rfl, rfl⟩
theorem witness_KeyScheduleAgreesWithTheSource :
    valid.PHASE = .idle ∧ valid.RESP = none ∧ ([0x4B] : List Byte) ≠ [] ∧ valid.KLEN.toNat = ([0x4B] : List Byte).length ∧
    ([0x4B] : List Byte).length ≤ 256 ∧
    (∀ k : Nat, k < ([0x4B] : List Byte).length → Memory.read valid.KEY (BitVec.ofNat 8 k) = ([0x4B] : List Byte)[k]?) ∧
    ({ valid with agenda := hostMoves [.ksa] } : State).agenda = hostMoves [.ksa] ++ [] := by
  decide
theorem witness_SourceScheduleGivesAPermutation : ([0] : List Byte) ≠ [] := by decide
theorem witness_KeyLengthLawsOfTheSchedule : 256 < (List.replicate 300 (7 : Byte)).length ∧ 1 ≤ 2 := by
  rw [List.length_replicate]; decide
theorem witness_KeystreamAgreesWithTheSource :
    valid.PHASE = .idle ∧ valid.RESP = none ∧ valid.SVALID = true ∧ (∀ a : Byte, Memory.read valid.S a = some (id a)) ∧
    (∀ i ∈ [Instr.prga 1, Instr.rdr 0], observes i = true ∨ ∃ d, i = .prga d) ∧
    ({ valid with agenda := hostMoves [.prga 1, .rdr 0] } : State).agenda = hostMoves [.prga 1, .rdr 0] ++ [] :=
  ⟨rfl, rfl, rfl, read_identity, by
    intro i hi
    rcases List.mem_cons.1 hi with rfl | hi
    · exact .inr ⟨1, rfl⟩
    · rw [List.mem_singleton.1 hi]; exact .inl rfl, rfl⟩
theorem witness_FacadeComputesTheSourceCipher :
    State.reset.PHASE = .idle ∧ State.reset.RESP = none ∧ ([0x4B] : List Byte) ≠ [] ∧
    ({ State.reset with agenda := hostMoves (cipherSequence [0x4B] [0x50]) } : State).agenda =
      hostMoves (cipherSequence [0x4B] [0x50]) ++ [] := by decide
theorem witness_FacadeRejectsTheEmptyKey :
    ({ State.reset with agenda := hostMoves (cipherSequence [] [0x50]) } : State).agenda =
      hostMoves (cipherSequence [] [0x50]) ++ [] := by decide
theorem witness_FacadeHostReportsTheSourceCipher :
    valid.PHASE = .idle ∧ valid.RESP = none ∧ valid.agenda = [] ∧ ([0x4B] : List Byte) ≠ [] :=
  ⟨rfl, rfl, rfl, by decide⟩
theorem witness_FacadeHostReportsInvalidKey : valid.PHASE = .idle ∧ valid.RESP = none ∧ valid.agenda = [] := ⟨rfl, rfl, rfl⟩
theorem witness_CipherTwiceRecoversTheMessage :
    ([0x4B] : List Byte) ≠ [] ∧ State.reset.PHASE = .idle ∧ State.reset.RESP = none ∧
    (∃ s : State, s.PHASE = .idle ∧ s.RESP = none ∧ s.agenda = hostMoves (cipherSequence [0x4B] [0x50]) ++ []) ∧
    ∀ t : State, ∃ s : State, s.PHASE = .idle ∧ s.RESP = none ∧
      s.agenda = hostMoves (cipherSequence [0x4B] (lastBytes 1 t)) ++ [] :=
  ⟨by decide, rfl, rfl, ⟨{ State.reset with agenda := hostMoves (cipherSequence [0x4B] [0x50]) ++ [] }, rfl, rfl, rfl⟩,
    fun t => ⟨{ State.reset with agenda := hostMoves (cipherSequence [0x4B] (lastBytes 1 t)) ++ [] }, rfl, rfl, rfl⟩⟩

end Sys2Proof.Tests
end

/-! ## Family 10_state: what the commands, the edges and the steps do to the state -/

section
/-! What each command and the engine's own step leave, once per operation. -/

namespace Sys2Proof.Machine

/-- `t` is `s` but for a response; beside an error it carries no data (R76, R77). -/
def OnlyResponds (s t : State) : Prop := ∃ (c : Code) (d : Half), (c ≠ .ok → d = 0) ∧ t = respond c d s

theorem execNop_onlyResponds {s t : State} (h : execNop s = .next t) : OnlyResponds s t := by
  cases h
  exact ⟨.ok, 0, fun _ => rfl, rfl⟩

theorem execSrd_onlyResponds {a : Byte} {s t : State} (h : execSrd a s = .next t) : OnlyResponds s t := by
  unfold execSrd at h
  split at h
  · obtain ⟨v, -, h⟩ := fetchS_next.1 h
    cases h
    exact ⟨.ok, _, fun hc => absurd rfl hc, rfl⟩
  · cases h
    exact ⟨.notReady, 0, fun _ => rfl, rfl⟩

theorem execRdr_onlyResponds {sel : Byte} {s t : State} (h : execRdr sel s = .next t) : OnlyResponds s t := by
  unfold execRdr at h
  split at h
  · cases h
    exact ⟨.ok, _, fun hc => absurd rfl hc, rfl⟩
  · cases h
    exact ⟨.illegal, 0, fun _ => rfl, rfl⟩

/-- KSA reports the empty key, or starts the schedule (R105). -/
theorem execKsa_next {s t : State} :
    execKsa s = .next t ↔
      (s.KLEN = 0 ∧ t = respond .invalidKey 0 (clearSvalid s)) ∨ (s.KLEN ≠ 0 ∧ t = startSchedule s) := by
  by_cases hk : s.KLEN = 0#9 <;> simp [execKsa, raiseError, hk, @eq_comm _ t]

@[simp] theorem appendKey_S (kb : Byte) (s : State) : (appendKey kb s).S = s.S := by
  rcases appendKey_cases kb s with ⟨-, e⟩ | ⟨-, e⟩ <;> rw [e]

@[simp] theorem appendKey_I (kb : Byte) (s : State) : (appendKey kb s).I = s.I := by
  rcases appendKey_cases kb s with ⟨-, e⟩ | ⟨-, e⟩ <;> rw [e]

@[simp] theorem appendKey_J (kb : Byte) (s : State) : (appendKey kb s).J = s.J := by
  rcases appendKey_cases kb s with ⟨-, e⟩ | ⟨-, e⟩ <;> rw [e]

@[simp] theorem appendKey_PHASE (kb : Byte) (s : State) : (appendKey kb s).PHASE = s.PHASE := by
  rcases appendKey_cases kb s with ⟨-, e⟩ | ⟨-, e⟩ <;> rw [e]

@[simp] theorem endIteration_KEY (i : Byte) (s : State) : (endIteration i s).KEY = s.KEY := by
  unfold endIteration; split <;> rfl

@[simp] theorem endIteration_KLEN (i : Byte) (s : State) : (endIteration i s).KLEN = s.KLEN := by
  unfold endIteration; split <;> rfl

@[simp] theorem endIteration_SVALID (i : Byte) (s : State) :
    (endIteration i s).SVALID = if i = 255#8 then true else s.SVALID := by
  unfold endIteration; split <;> rfl

/-- The engine's own step is a KSA iteration while a schedule is in progress, and nothing otherwise (R9, R106). -/
theorem engineStep_cases {s : State} {r : Result} (h : engineStep s = r) :
    (s.PHASE = .ksa ∧ ksaIteration s = r) ∨ (s.PHASE = .idle ∧ r = .next s) := by
  cases hp : s.PHASE with
  | ksa => exact .inl ⟨rfl, by simpa [engineStep, hp] using h⟩
  | idle => exact .inr ⟨rfl, by simpa [engineStep, hp] using h.symm⟩

theorem engineStep_of_idle {s : State} (h : s.PHASE = .idle) : engineStep s = .next s := by
  simp [engineStep, h]

theorem accept_of_decode {w : Word} {i : Instr} (h : decode w = .command i) (s : State) : accept w s = exec i s := by
  simp [accept, h]

/-- An accepted word runs the command it decodes to, or is illegal and only responds (R80, R163). -/
theorem accept_cases {w : Word} {s : State} {r : Result} (h : accept w s = r) :
    (∃ i, decode w = .command i ∧ exec i s = r) ∨ r = .next (respond .illegal 0 s) := by
  unfold accept at h
  split at h
  · exact .inl ⟨_, ‹_›, h⟩
  · exact .inr h.symm

end Sys2Proof.Machine
end

section
/-! The invariants of R32, operation by operation. -/

namespace Sys2Proof.Machine

theorem inv_reset : State.reset.Inv where
  klen_le := by decide
  svalid_permutation h := by cases h
  ksa_quiet h := by cases h
  resp_idle _ := rfl
  key_written k h := absurd h (Nat.not_lt_zero k)
  empty_invalid _ := rfl
  ksa_permutation h := by cases h
  s_wf := rfl
  key_wf := rfl
  resp_ok w h := by cases h
  received_ok w h := by cases h

theorem inv_resetEngine {s : State} (h : s.Inv) : (resetEngine s).Inv :=
  { inv_reset with received_ok := h.received_ok }

/-- An idle engine may hold any response of the form of R76 and R77. -/
theorem inv_respond {s : State} (h : s.Inv) (hp : s.PHASE = .idle) {c : Code} {d : Half} (hd : c ≠ .ok → d = 0) :
    (respond c d s).Inv :=
  { h with
    ksa_quiet := fun hk => by simp [hp] at hk
    resp_idle := fun _ => hp
    resp_ok := fun w hw => Option.some.inj hw ▸ responseOk_responseWord c d hd }

theorem inv_onlyResponds {s t : State} (h : s.Inv) (hp : s.PHASE = .idle) (ht : OnlyResponds s t) : t.Inv := by
  obtain ⟨c, d, hd, rfl⟩ := ht
  exact inv_respond h hp hd

theorem inv_clearSvalid {s : State} (h : s.Inv) : (clearSvalid s).Inv :=
  { h with
    svalid_permutation := fun hv => by cases hv
    ksa_quiet := fun hk => ⟨rfl, (h.ksa_quiet hk).2⟩
    empty_invalid := fun _ => rfl }

/-- KCLR's effect before its response (R100). -/
theorem inv_clearKey {s : State} (h : s.Inv) (hp : s.PHASE = .idle) : (clearSvalid { s with KLEN := 0 }).Inv :=
  { h with
    klen_le := Nat.zero_le _
    svalid_permutation := fun hv => by cases hv
    ksa_quiet := fun hk => by simp [hp] at hk
    key_written := fun k hk => absurd hk (Nat.not_lt_zero k)
    empty_invalid := fun _ => rfl }

theorem toNat_klen_succ {n : Count} (h : n.toNat < 256) : (n + 1).toNat = n.toNat + 1 := by
  rw [BitVec.toNat_add_of_lt] <;> simp
  omega

/-- KPUSH writes the cell `KLEN`, so the cells below the new `KLEN` hold values (R102). -/
theorem inv_appendKey {s : State} (h : s.Inv) (kb : Byte) : (appendKey kb s).Inv := by
  rcases appendKey_cases kb s with ⟨hlt, e⟩ | ⟨-, e⟩
  · rw [e]
    have hk := toNat_klen_succ hlt
    exact { h with
      klen_le := by simp only [hk]; omega
      ksa_quiet := fun hp => ⟨(h.ksa_quiet hp).1, (h.ksa_quiet hp).2.1, by simp only [hk]; omega⟩
      key_written := by
        intro k hlk
        rw [read_write]
        split
        · exact ⟨kb, rfl⟩
        · rename_i hne
          refine h.key_written k (lt_of_le_of_ne (by simp only [hk] at hlk; omega) ?_)
          rintro rfl
          exact hne (BitVec.ofNat_toNat 8 s.KLEN)
      empty_invalid := fun h0 => by
        have := congrArg BitVec.toNat h0
        simp only [hk] at this
        exact absurd this (Nat.succ_ne_zero _)
      key_wf := wf_write h.key_wf _ kb }
  · rw [e]
    exact h

/-- KSA's start: an identity table, and nothing pending (R105). -/
theorem inv_startSchedule {s : State} (h : s.Inv) (hr : s.RESP = none) (hk : s.KLEN ≠ 0) : (startSchedule s).Inv :=
  { h with
    svalid_permutation := fun hv => by cases hv
    ksa_quiet := fun _ => ⟨rfl, hr, Nat.one_le_iff_ne_zero.2 fun e => hk (BitVec.eq_of_toNat_eq e)⟩
    resp_idle := fun hn => absurd hr hn
    empty_invalid := fun _ => rfl
    ksa_permutation := fun _ => isPermutation_identity
    s_wf := wf_identity }

/-- The invariants say nothing of the indices. -/
theorem inv_indices {s : State} (h : s.Inv) (i j : Byte) : ({ s with I := i, J := j } : State).Inv :=
  { h with }

theorem inv_swap {s : State} (h : s.Inv) {a b x y : Byte} (hx : Memory.read s.S a = some x)
    (hy : Memory.read s.S b = some y) : (storeS (storeS s a y) b x).Inv :=
  { h with
    svalid_permutation := fun hv => isPermutation_swap (h.svalid_permutation hv) hx hy
    ksa_permutation := fun hp => isPermutation_swap (h.ksa_permutation hp) hx hy
    s_wf := wf_write (wf_write h.s_wf a y) b x }

theorem klen_ne_zero_of_ksa {s : State} (h : s.Inv) (hp : s.PHASE = .ksa) : s.KLEN ≠ 0 := by
  obtain ⟨-, -, hk⟩ := h.ksa_quiet hp
  intro h0
  simp [h0] at hk

/-- The completed schedule before its response: the permutation it worked on becomes the valid table (R106). -/
theorem inv_completeSchedule {s : State} (h : s.Inv) (hp : s.PHASE = .ksa) :
    ({ setSvalid s with I := 0, J := 0, PHASE := .idle, KCTR := 0 } : State).Inv :=
  have hk : s.KLEN ≠ 0 := klen_ne_zero_of_ksa h hp
  { h with
    svalid_permutation := fun _ => h.ksa_permutation hp
    ksa_quiet := fun hi => by cases hi
    resp_idle := fun _ => rfl
    empty_invalid := fun h0 => absurd h0 hk
    ksa_permutation := fun hi => by cases hi }

/-- The end of an iteration: the last one completes the schedule and responds, any other goes on (R106). -/
theorem inv_endIteration {s : State} (h : s.Inv) (hp : s.PHASE = .ksa) (i : Byte) : (endIteration i s).Inv := by
  unfold endIteration
  split
  · exact inv_respond (inv_completeSchedule h hp) rfl fun _ => rfl
  · exact { h with }

theorem exec_keeps_inv {i : Instr} {s t : State} (h : s.Inv) (hp : s.PHASE = .idle) (hr : s.RESP = none)
    (he : exec i s = .next t) : t.Inv := by
  have ok {d : Half} : Code.ok ≠ .ok → d = 0 := fun hc => absurd rfl hc
  cases i with
  | nop => exact inv_onlyResponds h hp (execNop_onlyResponds he)
  | kclr => cases he; exact inv_respond (inv_clearKey h hp) hp ok
  | kpush kb => cases he; exact inv_respond (inv_clearSvalid (inv_appendKey h kb)) (by simpa using hp) ok
  | ksa =>
    rcases execKsa_next.1 he with ⟨-, rfl⟩ | ⟨hk, rfl⟩
    · exact inv_respond (inv_clearSvalid h) hp fun _ => rfl
    · exact inv_startSchedule h hr hk
  | prga d =>
    rcases execPrga_next.1 he with ⟨-, rfl⟩ | ⟨-, si, sj, _, _, _, _, hsi, hsj, rfl, -, -, -, rfl⟩
    · exact inv_respond h hp fun _ => rfl
    · exact inv_respond (inv_swap (inv_indices h (s.I + 1) (s.J + si)) hsi hsj) hp ok
  | srd a => exact inv_onlyResponds h hp (execSrd_onlyResponds he)
  | rdr sel => exact inv_onlyResponds h hp (execRdr_onlyResponds he)
  | srst => cases he; exact inv_respond (inv_resetEngine h) rfl ok

theorem accept_keeps_inv {w : Word} {s t : State} (h : s.Inv) (hp : s.PHASE = .idle) (hr : s.RESP = none)
    (ha : accept w s = .next t) : t.Inv := by
  rcases accept_cases ha with ⟨i, -, he⟩ | he
  · exact exec_keeps_inv h hp hr he
  · cases he
    exact inv_respond h hp fun _ => rfl

theorem deliver_keeps_inv {s t : State} (h : s.Inv) (hd : deliver s = .next t) : t.Inv := by
  rcases deliver_next.1 hd with ⟨-, rfl⟩ | ⟨w, hw, -, rfl⟩
  · exact h
  · exact { h with
      ksa_quiet := fun hp => ⟨(h.ksa_quiet hp).1, rfl, (h.ksa_quiet hp).2.2⟩
      resp_idle := fun hn => absurd rfl hn
      resp_ok := fun _ hu => by cases hu
      received_ok := fun u hu => (List.mem_append.1 hu).elim (h.received_ok u) fun hu =>
        List.mem_singleton.1 hu ▸ h.resp_ok w hw }

theorem engineStep_keeps_inv {s t : State} (h : s.Inv) (he : engineStep s = .next t) : t.Inv := by
  rcases engineStep_cases he with ⟨hp, he⟩ | ⟨-, he⟩
  · obtain ⟨c, si, kb, sj, -, hsi, -, hsj, rfl⟩ := ksaIteration_next.1 he
    exact inv_endIteration (inv_swap (inv_indices h s.I (s.J + si + kb)) hsi hsj) hp _
  · cases he
    exact h

/-- Settles O14: each of the five things a step can do keeps the invariants. -/
theorem everyStepKeepsTheInvariants : Obligations.EveryStepKeepsTheInvariants := by
  intro s t h hs
  obtain ⟨g, hs⟩ := step_cases hs
  have hg := inv_agenda h g
  rcases hs with hs | ⟨hp, hr, w, hs⟩ | ⟨-, hs⟩ | hs | hs
  · cases hs; exact inv_resetEngine hg
  · exact accept_keeps_inv hg hp hr hs
  · exact deliver_keeps_inv hg hs
  · exact engineStep_keeps_inv hg hs
  · cases hs; exact hg

/-- Settles O13. -/
theorem resetStateMeetsTheInvariants : Obligations.ResetStateMeetsTheInvariants := inv_reset

end Sys2Proof.Machine
end

section
/-! From a state that meets the invariants every step answers a next state (R33, R173). -/

namespace Sys2Proof.Machine

/-- `r` is neither a fault nor a refusal. -/
def Answers (r : Result) : Prop := ∃ t : State, r = .next t

/-- All reads PRGA makes are of a permutation, before the swap and after it (R120). -/
theorem execPrga_answers {s : State} (h : s.Inv) (d : Byte) : Answers (execPrga d s) := by
  cases hv : s.SVALID with
  | false => exact ⟨_, execPrga_next.2 (.inl ⟨hv, rfl⟩)⟩
  | true =>
    have hS := h.svalid_permutation hv
    obtain ⟨si, hsi⟩ := hS.1 (s.I + 1)
    obtain ⟨sj, hsj⟩ := hS.1 (s.J + si)
    have hS' := isPermutation_swap (s := { s with I := s.I + 1, J := s.J + si }) hS hsi hsj
    obtain ⟨x, hx⟩ := hS'.1 (s.I + 1)
    obtain ⟨y, hy⟩ := hS'.1 (s.J + si)
    obtain ⟨k, hk⟩ := hS'.1 (x + y)
    exact ⟨_, execPrga_next.2 (.inr ⟨hv, si, sj, x, y, k, _, hsi, hsj, rfl, hx, hy, hk, rfl⟩)⟩

theorem execSrd_answers {s : State} (h : s.Inv) (a : Byte) : Answers (execSrd a s) := by
  cases hv : s.SVALID with
  | false => exact ⟨_, by rw [execSrd, hv]; rfl⟩
  | true =>
    obtain ⟨v, hr⟩ := (h.svalid_permutation hv).1 a
    exact ⟨_, by rw [execSrd, if_pos hv, fetchS_of_read _ hr]⟩

theorem execRdr_answers (sel : Byte) (s : State) : Answers (execRdr sel s) := by
  unfold execRdr
  split
  · exact ⟨_, rfl⟩
  · exact ⟨_, rfl⟩

theorem execKsa_answers (s : State) : Answers (execKsa s) := by
  by_cases hk : s.KLEN = 0
  · exact ⟨_, execKsa_next.2 (.inl ⟨hk, rfl⟩)⟩
  · exact ⟨_, execKsa_next.2 (.inr ⟨hk, rfl⟩)⟩

theorem exec_answers {s : State} (h : s.Inv) (i : Instr) : Answers (exec i s) := by
  cases i with
  | nop => exact ⟨_, rfl⟩
  | kclr => exact ⟨_, rfl⟩
  | kpush kb => exact ⟨_, rfl⟩
  | ksa => exact execKsa_answers s
  | prga d => exact execPrga_answers h d
  | srd a => exact execSrd_answers h a
  | rdr sel => exact execRdr_answers sel s
  | srst => exact ⟨_, rfl⟩

theorem accept_answers {s : State} (h : s.Inv) (w : Word) : Answers (accept w s) := by
  rcases accept_cases (w := w) (s := s) rfl with ⟨i, -, he⟩ | he
  · exact he ▸ exec_answers h i
  · exact ⟨_, he⟩

theorem deliver_answers {s : State} (h : s.Inv) : Answers (deliver s) := by
  cases hr : s.RESP with
  | none => exact ⟨_, deliver_next.2 (.inl ⟨hr, rfl⟩)⟩
  | some w =>
    obtain ⟨-, hc, -⟩ := h.resp_ok w hr
    exact ⟨_, deliver_next.2 (.inr ⟨w, hr, BitVec.not_le.2 hc, rfl⟩)⟩

/-- A key schedule in progress has a key, whose cell `i mod KLEN` is written, and works on a permutation (R106). -/
theorem ksaIteration_answers {s : State} (h : s.Inv) (hp : s.PHASE = .ksa) : Answers (ksaIteration s) := by
  obtain ⟨-, -, hk⟩ := h.ksa_quiet hp
  have hS := h.ksa_permutation hp
  obtain ⟨kb, hkb⟩ := h.key_written _ (Nat.mod_lt s.KCTR.toNat hk)
  obtain ⟨si, hsi⟩ := hS.1 s.KCTR
  obtain ⟨sj, hsj⟩ := hS.1 (s.J + si + kb)
  exact ⟨_, ksaIteration_next.2 ⟨_, si, kb, sj, keyCell_eq_some.2 ⟨klen_ne_zero_of_ksa h hp, rfl⟩, hsi, hkb, hsj, rfl⟩⟩

theorem engineStep_answers {s : State} (h : s.Inv) : Answers (engineStep s) := by
  rcases engineStep_cases (s := s) rfl with ⟨hp, he⟩ | ⟨-, he⟩
  · exact he ▸ ksaIteration_answers h hp
  · exact ⟨_, he⟩

theorem step_answers {s : State} (h : s.Inv) : Answers (step s) := by
  obtain ⟨g, hs⟩ := step_cases (s := s) rfl
  have hg := inv_agenda h g
  rcases hs with hs | ⟨-, -, w, hs⟩ | ⟨-, hs⟩ | hs | hs
  · exact ⟨_, hs⟩
  · exact hs ▸ accept_answers hg w
  · exact hs ▸ deliver_answers hg
  · exact hs ▸ engineStep_answers hg
  · exact ⟨_, hs⟩

/-- Settles O15, by induction on the number of steps: each answers a state that meets the invariants again. -/
theorem noRunFaults : Obligations.NoRunFaults := by
  intro s h n
  induction n generalizing s with
  | zero => exact ⟨s, rfl⟩
  | succ n ih =>
    obtain ⟨u, hu⟩ := step_answers h
    rw [run_of_step hu]
    exact ih u (everyStepKeepsTheInvariants s u h hu)

end Sys2Proof.Machine
end

section
/-! The writers of `SVALID` (R25), of the two spaces, of `KLEN` and of the indices (R21, R23, R24). -/

namespace Sys2Proof.Machine

/-- The commands that clear `SVALID` (R25). -/
def clearsSvalid : Instr → Bool
  | .kclr | .kpush _ | .ksa | .srst => true
  | .nop | .prga _ | .srd _ | .rdr _ => false

theorem clearsSvalid_iff {i : Instr} :
    clearsSvalid i = true ↔ i = .kclr ∨ (∃ kb, i = .kpush kb) ∨ i = .ksa ∨ i = .srst := by
  cases i <;> simp [clearsSvalid]

theorem not_clearsSvalid_iff {i : Instr} :
    clearsSvalid i = false ↔ i = .nop ∨ (∃ d, i = .prga d) ∨ (∃ a, i = .srd a) ∨ ∃ sel, i = .rdr sel := by
  cases i <;> simp [clearsSvalid]

theorem OnlyResponds.svalid {s t : State} (h : OnlyResponds s t) : t.SVALID = s.SVALID := by
  obtain ⟨c, d, -, rfl⟩ := h
  rfl

theorem OnlyResponds.key {s t : State} (h : OnlyResponds s t) : t.KEY = s.KEY ∧ t.KLEN = s.KLEN := by
  obtain ⟨c, d, -, rfl⟩ := h
  exact ⟨rfl, rfl⟩

theorem OnlyResponds.table {s t : State} (h : OnlyResponds s t) : t.S = s.S ∧ t.I = s.I ∧ t.J = s.J := by
  obtain ⟨c, d, -, rfl⟩ := h
  exact ⟨rfl, rfl, rfl⟩

/-- What an executed command leaves in `SVALID` (R25). -/
theorem exec_svalid {i : Instr} {s t : State} (h : exec i s = .next t) :
    t.SVALID = if clearsSvalid i then false else s.SVALID := by
  cases i with
  | nop => exact (execNop_onlyResponds h).svalid
  | kclr => cases h; rfl
  | kpush kb => cases h; rfl
  | ksa => rcases execKsa_next.1 h with ⟨-, rfl⟩ | ⟨-, rfl⟩ <;> rfl
  | prga d => rcases execPrga_next.1 h with ⟨-, rfl⟩ | ⟨-, _, _, _, _, _, _, -, -, rfl, -, -, -, rfl⟩ <;> rfl
  | srd a => exact (execSrd_onlyResponds h).svalid
  | rdr sel => exact (execRdr_onlyResponds h).svalid
  | srst => cases h; rfl

/-- An accepted word that changes `SVALID` clears it, and is one of the clearing commands. -/
theorem accept_svalid {w : Word} {s t : State} (h : accept w s = .next t) :
    t.SVALID = s.SVALID ∨ (t.SVALID = false ∧ ∃ i, decode w = .command i ∧ clearsSvalid i = true) := by
  rcases accept_cases h with ⟨i, hi, he⟩ | he
  · have hv := exec_svalid he
    split at hv
    · exact .inr ⟨hv, i, hi, ‹_›⟩
    · exact .inl hv
  · cases he
    exact .inl rfl

theorem deliver_svalid {s t : State} (h : deliver s = .next t) : t.SVALID = s.SVALID := by
  rcases deliver_next.1 h with ⟨-, rfl⟩ | ⟨w, -, -, rfl⟩ <;> rfl

/-- The engine's own step changes `SVALID` only by setting it, at the last iteration (R106). -/
theorem engineStep_svalid {s t : State} (h : engineStep s = .next t) :
    t.SVALID = s.SVALID ∨ (t.SVALID = true ∧ s.PHASE = .ksa ∧ s.KCTR = 255#8) := by
  rcases engineStep_cases h with ⟨hp, h⟩ | ⟨-, h⟩
  · obtain ⟨c, si, kb, sj, -, -, -, -, rfl⟩ := ksaIteration_next.1 h
    by_cases hc : s.KCTR = 255#8
    · exact .inr ⟨by simp [hc], hp, hc⟩
    · exact .inl (by simp [hc])
  · cases h
    exact .inl rfl

theorem step_sets_svalid {s t : State} (h : step s = .next t) (hs : s.SVALID = false) (ht : t.SVALID = true) :
    s.PHASE = .ksa ∧ s.KCTR = 255#8 := by
  obtain ⟨g, h⟩ := step_cases h
  have changed : t.SVALID ≠ s.SVALID := by simp [hs, ht]
  rcases h with h | ⟨-, -, w, h⟩ | ⟨-, h⟩ | h | h
  · cases h; cases ht
  · rcases accept_svalid h with hv | ⟨hv, -⟩
    · exact absurd hv changed
    · simp [hv] at ht
  · exact absurd (deliver_svalid h) changed
  · rcases engineStep_svalid h with hv | ⟨-, hp, hc⟩
    · exact absurd hv changed
    · exact ⟨hp, hc⟩
  · cases h; exact absurd rfl changed

theorem clockEdge_clears_svalid {p : Pins} {e : Bool} {s t : State} (h : clockEdge p e s = .next t)
    (hs : s.SVALID = true) (ht : t.SVALID = false) :
    p.rst = true ∨ (p.cmdValid = true ∧ cmdReady p.rst s = true ∧
      ∃ i, decode p.cmdData = .command i ∧ clearsSvalid i = true) := by
  have changed : t.SVALID ≠ s.SVALID := by simp [hs, ht]
  rcases clockEdge_cases h with ⟨hrst, -⟩ | ⟨hrst, hp, hr, hv, h⟩ | ⟨-, -, -, h⟩ | ⟨-, h⟩ | ⟨-, h⟩
  · exact .inl hrst
  · rcases accept_svalid h with h | ⟨-, hi⟩
    · exact absurd h changed
    · exact .inr ⟨hv, by simp [cmdReady, hrst, hp, hr], hi⟩
  · exact absurd (deliver_svalid h) changed
  · rcases engineStep_svalid h with hv | ⟨hv, -⟩
    · exact absurd hv changed
    · simp [hv] at ht
  · cases h; exact absurd rfl changed

theorem step_clears_svalid {s t : State} (h : step s = .next t) (hs : s.SVALID = true) (ht : t.SVALID = false) :
    ∃ m rest, s.agenda = m :: rest ∧ ((movePins m).rst = true ∨
      ((movePins m).cmdValid = true ∧ (outputs (movePins m).rst s).cmdReady = true ∧
        ∃ i, decode (movePins m).cmdData = .command i ∧ clearsSvalid i = true)) := by
  rw [step_eq] at h
  split at h
  · rcases engineStep_svalid h with hv | ⟨hv, -⟩ <;> simp [hv, hs] at ht
  · rename_i m rest hg
    refine ⟨m, rest, hg, ?_⟩
    split at h
    · exact clockEdge_clears_svalid h hs ht
    · exact clockEdge_clears_svalid (s := { s with agenda := rest }) h hs ht

/-- A move that is an edge of the host's own is never held. -/
theorem step_of_edge {s : State} {p : Pins} {e : Bool} {rest : List Move} (ha : s.agenda = .edge p e :: rest) :
    step s = clockEdge p e { s with agenda := rest } := by
  rw [step_eq, ha]
  rfl

/-- An edge with `rst = 1` resets the engine, whatever the other pins (R166, R180). -/
theorem step_of_reset_edge {s : State} {p : Pins} {e : Bool} {rest : List Move} (ha : s.agenda = .edge p e :: rest)
    (hrst : p.rst = true) : step s = .next (resetEngine { s with agenda := rest }) := by
  simp [step_of_edge ha, clockEdge, hrst]

/-- Settles O28: only the last iteration sets `SVALID`, and only a reset edge or a clearing command clears it. -/
theorem svalidChangesOnlyWhereStated : Obligations.SvalidChangesOnlyWhereStated := by
  refine ⟨fun s t => step_sets_svalid, fun s t h hs ht => ?_, fun s t p e rest ha hrst h => ?_, fun i s t h => ?_⟩
  · simpa only [← clearsSvalid_iff] using step_clears_svalid h hs ht
  · rw [step_of_reset_edge ha hrst] at h
    cases h
    rfl
  · have hv := exec_svalid h
    rw [← clearsSvalid_iff, ← not_clearsSvalid_iff]
    exact ⟨fun hi => by simpa [hi] using hv, fun hi => by simpa [hi] using hv⟩

theorem execKsa_keeps_key {s t : State} (h : execKsa s = .next t) : t.KEY = s.KEY ∧ t.KLEN = s.KLEN := by
  rcases execKsa_next.1 h with ⟨-, rfl⟩ | ⟨-, rfl⟩ <;> exact ⟨rfl, rfl⟩

theorem execPrga_keeps_key {d : Byte} {s t : State} (h : execPrga d s = .next t) : t.KEY = s.KEY ∧ t.KLEN = s.KLEN := by
  rcases execPrga_next.1 h with ⟨-, rfl⟩ | ⟨-, _, _, _, _, _, _, -, -, rfl, -, -, -, rfl⟩ <;> exact ⟨rfl, rfl⟩

theorem execKclr_keeps_table {s t : State} (h : execKclr s = .next t) : t.S = s.S ∧ t.I = s.I ∧ t.J = s.J := by
  cases h
  exact ⟨rfl, rfl, rfl⟩

theorem execKpush_keeps_table {kb : Byte} {s t : State} (h : execKpush kb s = .next t) :
    t.S = s.S ∧ t.I = s.I ∧ t.J = s.J := by
  cases h
  simp

theorem engineStep_keeps_key {s t : State} (h : engineStep s = .next t) : t.KEY = s.KEY ∧ t.KLEN = s.KLEN := by
  rcases engineStep_cases h with ⟨-, h⟩ | ⟨-, h⟩
  · obtain ⟨c, si, kb, sj, -, -, -, -, rfl⟩ := ksaIteration_next.1 h
    simp
  · cases h
    exact ⟨rfl, rfl⟩

/-- Settles O29: a case for each command named. -/
theorem spacesAndIndicesKeepTheirWriters : Obligations.SpacesAndIndicesKeepTheirWriters := by
  refine ⟨fun i s t h => ⟨?_, ?_⟩, fun s t => engineStep_keeps_key⟩
  · rintro (rfl | rfl | ⟨d, rfl⟩ | ⟨a, rfl⟩ | ⟨sel, rfl⟩)
    · exact (execNop_onlyResponds h).key
    · exact execKsa_keeps_key h
    · exact execPrga_keeps_key h
    · exact (execSrd_onlyResponds h).key
    · exact (execRdr_onlyResponds h).key
  · rintro (rfl | rfl | ⟨kb, rfl⟩ | ⟨a, rfl⟩ | ⟨sel, rfl⟩)
    · exact (execNop_onlyResponds h).table
    · exact execKclr_keeps_table h
    · exact execKpush_keeps_table h
    · exact (execSrd_onlyResponds h).table
    · exact (execRdr_onlyResponds h).table

end Sys2Proof.Machine
end

section
/-! The ports: acceptance of a command (R29), delivery of a response (R30) and the level outputs (R31). -/

namespace Sys2Proof.Machine

theorem cmdReady_iff {rst : Bool} {s : State} :
    cmdReady rst s = true ↔ s.PHASE = .idle ∧ s.RESP = none ∧ rst = false := by
  simp [cmdReady, and_assoc]

theorem cmdReady_eq_false {rst : Bool} {s : State} (h : ¬ (s.PHASE = .idle ∧ s.RESP = none)) :
    cmdReady rst s = false :=
  Bool.eq_false_iff.2 fun hr => h ((cmdReady_iff.1 hr).imp_right And.left)

theorem rspValid_iff {s : State} : rspValid s = true ↔ s.RESP ≠ none := by
  simp [rspValid, Option.isSome_iff_ne_none]

/-- R29: an edge with `cmd_valid` and `cmd_ready` accepts the word. -/
theorem clockEdge_accepts {p : Pins} (e : Bool) {s : State} (hv : p.cmdValid = true) (hr : cmdReady p.rst s = true) :
    clockEdge p e s = accept p.cmdData s := by
  obtain ⟨-, -, hrst⟩ := cmdReady_iff.1 hr
  rw [hrst] at hr
  simp [clockEdge, hrst, hv, hr]

theorem clockEdge_of_not_ready {p : Pins} (e : Bool) {s : State} (hr : cmdReady p.rst s = false) :
    clockEdge p e s = clockEdge { p with cmdValid := false } e s := by
  simp [clockEdge, hr]

/-- R29: a command offered to an engine that is not ready is held, and the engine takes its own step. -/
theorem step_of_held_command {s : State} {w : Word} {rest : List Move} (ha : s.agenda = .issue w :: rest)
    (hn : ¬ (s.PHASE = .idle ∧ s.RESP = none)) : step s = engineStep s := by
  rw [step_eq, ha]
  simp [clockEdge, movePins, moveEngine, held, cmdReady_eq_false hn]

/-- R30: an edge with `rsp_ready`, a response pending and no reset delivers. -/
theorem clockEdge_delivers {p : Pins} (e : Bool) {s : State} (hr : s.RESP ≠ none) (hrst : p.rst = false)
    (hready : p.rspReady = true) : clockEdge p e s = deliver s := by
  simp [clockEdge, hrst, cmdReady_eq_false fun h => hr h.2, hready, rspValid_iff.2 hr]

theorem eq_of_decodeNoOperand {i j : Instr} {imm : Byte} (h : decodeNoOperand j imm = .command i) : i = j := by
  unfold decodeNoOperand at h
  split at h
  · exact (Decoded.command.inj h).symm
  · cases h

/-- R73, R79: the decoder gives only well-formed commands; one case for each row of the opcode map. -/
theorem wellFormed_of_decode {w : Word} {i : Instr} (h : decode w = .command i) : i.wellFormed = true := by
  simp only [decode, ite_eq_iff, reduceCtorEq, and_false, or_false, false_or] at h
  obtain ⟨-, -, ⟨-, h⟩ | ⟨-, ⟨-, h⟩ | ⟨-, ⟨-, h⟩ | ⟨-, ⟨-, h⟩ | ⟨-, ⟨-, h⟩ | ⟨-, ⟨-, h⟩ | ⟨-, ⟨-, hsel, h⟩ | ⟨-, h⟩⟩⟩⟩⟩⟩⟩⟩ := h
  · exact eq_of_decodeNoOperand h ▸ rfl
  · exact eq_of_decodeNoOperand h ▸ rfl
  · cases h; rfl
  · exact eq_of_decodeNoOperand h ▸ rfl
  · cases h; rfl
  · cases h; rfl
  · cases h; exact decide_eq_true hsel
  · exact eq_of_decodeNoOperand h ▸ rfl

@[simp] theorem tableWord_toNat (w : Word) : tableWord 32 w.toNat = w := by
  rw [tableWord, Nat.mod_eq_of_lt w.isLt, BitVec.ofNat_toNat, BitVec.setWidth_eq]

/-- Settles O8: a ready engine accepts the offered word, and an accepted word runs the command it decodes to. -/
theorem stepRunsTheDecodedCommand : Obligations.StepRunsTheDecodedCommand := by
  refine ⟨?_, ?_, ?_⟩
  · rintro s w rest i ⟨hp, hr, ha⟩ hi
    exact ⟨wellFormed_of_decode hi, (step_accepts hp hr ha).trans (accept_of_decode hi _)⟩
  · intro s p e rest i hp hr ha hrst hv hi
    have hready : cmdReady p.rst { s with agenda := rest } = true := cmdReady_iff.2 ⟨hp, hr, hrst⟩
    rw [step_of_edge ha, clockEdge_accepts e hv hready, accept_of_decode hi]
  · intro s w i hi
    have ha : (s.withFetchWord 32 w.toNat).agenda = .issue w :: s.agenda := by
      simp [State.withFetchWord]
    exact (step_accepts rfl rfl ha).trans (accept_of_decode hi _)

/-- Settles O9. -/
theorem commandsAreAcceptedExactlyWhenReady : Obligations.CommandsAreAcceptedExactlyWhenReady :=
  ⟨fun _ _ => cmdReady_iff, fun _ e _ => clockEdge_of_not_ready e, fun _ _ _ => step_of_held_command,
    fun _ e _ => clockEdge_accepts e⟩

/-- Settles O10: delivery moves the pending word to the host; a held command leaves an idle engine as it is. -/
theorem responsesAreDeliveredOnceAndInOrder : Obligations.ResponsesAreDeliveredOnceAndInOrder := by
  refine ⟨fun _ s => ⟨rspValid_iff, rfl⟩, ?_, ?_, ?_⟩
  · rintro s u rest hr ⟨-, hc, -⟩ ha
    exact step_consume hr (BitVec.not_le.2 hc) ha
  · rintro s p e u rest hr ⟨-, hc, -⟩ ha hrst hready
    rw [step_of_edge ha, clockEdge_delivers e (by simp [hr]) hrst hready]
    exact deliver_next.2 (.inr ⟨u, hr, BitVec.not_le.2 hc, rfl⟩)
  · intro s u w rest hp hr ha
    rw [step_of_held_command ha (by simp [hr]), engineStep_of_idle hp]

/-- Settles O11: R32 items 3 and 4, read at the output ports. -/
theorem busyEngineShowsNothing : Obligations.BusyEngineShowsNothing := by
  intro s rst h
  constructor
  · intro hb
    have hp : s.PHASE = .ksa := by simpa [outputs, busyOut] using hb
    obtain ⟨hv, hr, -⟩ := h.ksa_quiet hp
    simp [outputs, cmdReady, rspValid, svalidOut, hp, hv, hr]
  · intro hrv
    have hr : s.RESP ≠ none := rspValid_iff.1 hrv
    simp [outputs, cmdReady, busyOut, h.resp_idle hr, hr]

end Sys2Proof.Machine
end

/-! ## Family 20_memory: the canonical form of the byte memories, the cells of `KEY`, and the transport of words -/

section
/-! A byte memory in the canonical form is determined by what its cells read (log entry 1). -/

namespace Sys2Proof.Machine

theorem get_cons_same (b : Nat) (v : Byte) (m : Memory) : Memory.get ((b, v) :: m) b = some v := by
  simp [Memory.get]

theorem get_cons_other {a b : Nat} (v : Byte) (m : Memory) (h : a ≠ b) :
    Memory.get ((b, v) :: m) a = Memory.get m a := by
  simp [Memory.get, h]

theorem risingFrom_cons {lo b : Nat} {v : Byte} {m : Memory} :
    Memory.risingFrom lo ((b, v) :: m) = true ↔ lo ≤ b ∧ b < 256 ∧ Memory.risingFrom (b + 1) m = true := by
  simp [Memory.risingFrom, and_assoc]

/-- A list that rises from `lo` lists no cell below `lo`. -/
theorem le_of_get {m : Memory} {lo a : Nat} {v : Byte} (h : Memory.risingFrom lo m = true)
    (hg : Memory.get m a = some v) : lo ≤ a := by
  by_contra hlt
  simp [get_below h (Nat.lt_of_not_le hlt)] at hg

/-- The first cell of a rising list is the least cell that holds a value. -/
theorem head_le_of_get {a b lo : Nat} {u v : Byte} {m : Memory} (h : Memory.risingFrom lo ((b, u) :: m) = true)
    (hg : Memory.get ((b, u) :: m) a = some v) : b ≤ a := by
  obtain ⟨-, hb, hm⟩ := risingFrom_cons.1 h
  exact le_of_get (risingFrom_cons.2 ⟨Nat.le_refl b, hb, hm⟩) hg

/-- Two rising lists that read alike agree in the first cell and its byte, which stands in neither tail, and so in the tails. -/
theorem eq_of_get_eq {m m' : Memory} {lo : Nat} (h : Memory.risingFrom lo m = true)
    (h' : Memory.risingFrom lo m' = true) (hg : ∀ a < 256, Memory.get m a = Memory.get m' a) : m = m' := by
  induction m generalizing lo m' with
  | nil =>
    cases m' with
    | nil => rfl
    | cons c m' =>
      obtain ⟨-, hb, -⟩ := risingFrom_cons.1 h'
      exact nomatch (hg c.1 hb).trans (get_cons_same c.1 c.2 m')
  | cons c m ih =>
    obtain ⟨b, v⟩ := c
    obtain ⟨-, hb, hm⟩ := risingFrom_cons.1 h
    have hv : Memory.get m' b = some v := (hg b hb).symm.trans (get_cons_same b v m)
    cases m' with
    | nil => exact nomatch hv
    | cons c' m' =>
      obtain ⟨b', v'⟩ := c'
      obtain ⟨-, hb', hm'⟩ := risingFrom_cons.1 h'
      have hv' : Memory.get ((b, v) :: m) b' = some v' := (hg b' hb').trans (get_cons_same b' v' m')
      obtain rfl : b = b' := Nat.le_antisymm (head_le_of_get h hv') (head_le_of_get h' hv)
      obtain rfl : v = v' := Option.some.inj (hv.symm.trans (get_cons_same b v' m'))
      have tails : ∀ a < 256, Memory.get m a = Memory.get m' a := by
        intro a ha
        by_cases hab : a = b
        · subst hab
          rw [get_below hm (Nat.lt_succ_self a), get_below hm' (Nat.lt_succ_self a)]
        · rw [← get_cons_other v m hab, ← get_cons_other v m' hab, hg a ha]
      rw [ih hm hm' tails]

/-- Settles O32: every cell of the space is the cell of a byte, so the two memories read alike as lists. -/
theorem canonicalMemoriesWithEqualCellsAreEqual : Obligations.CanonicalMemoriesWithEqualCellsAreEqual := by
  intro m m' h h' hread
  refine eq_of_get_eq h h' fun a ha => ?_
  have hcell : (BitVec.ofNat 8 a).toNat = a := Nat.mod_eq_of_lt ha
  simpa only [Memory.read, hcell] using hread (BitVec.ofNat 8 a)

end Sys2Proof.Machine
end

section
/-! No command reads a cell of `KEY` (R51): with other cells it does the same, but for what `KEY` then holds. -/

namespace Sys2Proof.Machine

/-- KPUSH's cell and count come from `KLEN` alone (R102). -/
theorem appendKey_withKey (kb : Byte) (s : State) (K : Memory) :
    ∃ K' : Memory, appendKey kb { s with KEY := K } = { appendKey kb s with KEY := K' } := by
  unfold appendKey
  cases pushCell s.KLEN with
  | none => exact ⟨K, rfl⟩
  | some a => exact ⟨Memory.write K a kb, rfl⟩

theorem execKsa_withKey {s t : State} (K : Memory) (h : execKsa s = .next t) :
    execKsa { s with KEY := K } = .next { t with KEY := K } := by
  rw [execKsa_next] at h ⊢
  rcases h with ⟨hk, rfl⟩ | ⟨hk, rfl⟩
  · exact .inl ⟨hk, rfl⟩
  · exact .inr ⟨hk, rfl⟩

/-- All reads of PRGA are of `S` (R120). -/
theorem execPrga_withKey {d : Byte} {s t : State} (K : Memory) (h : execPrga d s = .next t) :
    execPrga d { s with KEY := K } = .next { t with KEY := K } := by
  rw [execPrga_next] at h ⊢
  rcases h with ⟨hv, rfl⟩ | ⟨hv, si, sj, x, y, k, s1, hsi, hsj, rfl, hx, hy, hk, rfl⟩
  · exact .inl ⟨hv, rfl⟩
  · exact .inr ⟨hv, si, sj, x, y, k, _, hsi, hsj, rfl, hx, hy, hk, rfl⟩

theorem execSrd_withKey {a : Byte} {s t : State} (K : Memory) (h : execSrd a s = .next t) :
    execSrd a { s with KEY := K } = .next { t with KEY := K } := by
  unfold execSrd at h ⊢
  split at h
  · rename_i hvalid
    obtain ⟨v, hread, h⟩ := fetchS_next.1 h
    cases h
    exact (if_pos hvalid).trans (fetchS_of_read _ hread)
  · rename_i hvalid
    cases h
    exact if_neg hvalid

/-- No register of R35 holds a key byte. -/
theorem execRdr_withKey {sel : Byte} {s t : State} (K : Memory) (h : execRdr sel s = .next t) :
    execRdr sel { s with KEY := K } = .next { t with KEY := K } := by
  have hreg : registerValue sel { s with KEY := K } = registerValue sel s := rfl
  unfold execRdr at h ⊢
  rw [hreg]
  generalize registerValue sel s = r at h ⊢
  cases r with
  | none => cases h; rfl
  | some v => cases h; rfl

/-- Every command runs alike with other cells in `KEY`; only KPUSH and SRST then write `KEY`. -/
theorem exec_withKey {i : Instr} {s t : State} (K : Memory) (h : exec i s = .next t) :
    ∃ K' : Memory, exec i { s with KEY := K } = .next { t with KEY := K' } := by
  cases i with
  | nop => cases h; exact ⟨K, rfl⟩
  | kclr => cases h; exact ⟨K, rfl⟩
  | kpush kb =>
    cases h
    obtain ⟨K', hK'⟩ := appendKey_withKey kb s K
    refine ⟨K', ?_⟩
    simp only [exec, execKpush, hK']
    rfl
  | ksa => exact ⟨K, execKsa_withKey K h⟩
  | prga d => exact ⟨K, execPrga_withKey K h⟩
  | srd a => exact ⟨K, execSrd_withKey K h⟩
  | rdr sel => exact ⟨K, execRdr_withKey K h⟩
  | srst => cases h; exact ⟨[], rfl⟩

/-- Settles O30: the run with the cells `K` is the run without them, `KEY` apart. -/
theorem responsesDoNotDependOnTheKeyCells : Obligations.ResponsesDoNotDependOnTheKeyCells := by
  intro i s t t' K h h'
  obtain ⟨K', hK'⟩ := exec_withKey K h
  obtain rfl : { t with KEY := K' } = t' := Host.Outcome.next.inj (hK'.symm.trans h')
  exact ⟨rfl, rfl⟩

end Sys2Proof.Machine
end

section
/-! The byte-wide transport of whole words (R54). -/

namespace Sys2Proof

/-- A word is its four bytes, the most significant first (R10). -/
theorem append_bytes_of_word (w : Word) :
    w.extractLsb' 24 8 ++ w.extractLsb' 16 8 ++ w.extractLsb' 8 8 ++ w.extractLsb' 0 8 = w := by
  rw [BitVec.extractLsb'_append_extractLsb'_eq_extractLsb' (show 24 = 16 + 8 from rfl),
    BitVec.extractLsb'_append_extractLsb'_eq_extractLsb' (show 16 = 8 + 8 from rfl),
    BitVec.extractLsb'_append_extractLsb'_eq_extractLsb' (show 8 = 0 + 8 from rfl)]
  exact BitVec.extractLsb'_eq_self

/-- Settles O7: either order of the bytes is read back most significant byte first. -/
theorem transportCarriesTheWord : Obligations.TransportCarriesTheWord := by
  intro o w rest
  have carried := congrArg (fun u => some (u, rest)) (append_bytes_of_word w)
  cases o with
  | little => exact carried
  | big => exact carried

end Sys2Proof
end

/-! ## Family 30_encoding: words and commands, the opcode map, and the facade's sequence with an empty key -/

section
/-! Decoding and encoding by the three fields of a command word (R70). -/

namespace Sys2Proof
open Machine

/-- A command word is its three fields (R70). -/
theorem append_fields_of_word (w : Word) : opField w ++ rsvdField w ++ imm8Field w = w := by
  unfold opField rsvdField imm8Field
  rw [BitVec.extractLsb'_append_extractLsb'_eq_extractLsb' (show 28 = 8 + 20 from rfl),
    BitVec.extractLsb'_append_extractLsb'_eq_extractLsb' (show 8 = 0 + 8 from rfl)]
  exact BitVec.extractLsb'_eq_self

theorem word_eq_iff_fields {w v : Word} :
    w = v ↔ opField w = opField v ∧ rsvdField w = rsvdField v ∧ imm8Field w = imm8Field v := by
  constructor
  · rintro rfl
    exact ⟨rfl, rfl, rfl⟩
  · rintro ⟨hop, hrsvd, himm⟩
    rw [← append_fields_of_word w, hop, hrsvd, himm, append_fields_of_word]

/-- The word of a command carries its opcode, a zero reserved field and its operand, by the law of its constructor. -/
theorem fields_of_encode {i : Instr} (h : i.wellFormed = true) :
    opField (encode i) = i.opcode ∧ rsvdField (encode i) = 0 ∧ imm8Field (encode i) = i.imm8 := by
  have law : Laws.Encoding.Statement i := by
    cases i with
    | nop => exact Laws.Encoding.nop
    | kclr => exact Laws.Encoding.kclr
    | kpush kb => exact Laws.Encoding.kpush kb
    | ksa => exact Laws.Encoding.ksa
    | prga d => exact Laws.Encoding.prga d
    | srd a => exact Laws.Encoding.srd a
    | rdr sel => exact Laws.Encoding.rdr sel
    | srst => exact Laws.Encoding.srst
  exact (law h).2

theorem decodeNoOperand_eq_command {i j : Instr} {imm : Byte} :
    decodeNoOperand j imm = .command i ↔ imm = 0 ∧ j = i := by
  simp [decodeNoOperand, ite_eq_iff]

/-- SRST is the last branch of the decoder: the one opcode below 8 that none of the seven tests before it names. -/
theorem opcode_seven_of_no_other {op : BitVec 4} (h : ¬ 8#4 ≤ op) (h0 : op ≠ 0) (h1 : op ≠ 1) (h2 : op ≠ 2)
    (h3 : op ≠ 3) (h4 : op ≠ 4) (h5 : op ≠ 5) (h6 : op ≠ 6) : op = 7 := by
  bv_omega

/-- R70, R79: a decoded word has the command's fields; one case for each row of the opcode map. -/
theorem fields_of_decode {w : Word} {i : Instr} (h : decode w = .command i) :
    opField w = i.opcode ∧ rsvdField w = 0 ∧ imm8Field w = i.imm8 := by
  simp only [decode, ite_eq_iff, decodeNoOperand_eq_command, Decoded.command.injEq, reduceCtorEq, and_false, or_false,
    false_or, ne_eq, not_not] at h
  obtain ⟨hlt, hr, ⟨h0, hi, rfl⟩ | ⟨n0, ⟨h1, hi, rfl⟩ | ⟨n1, ⟨h2, rfl⟩ | ⟨n2, ⟨h3, hi, rfl⟩ | ⟨n3, ⟨h4, rfl⟩ |
    ⟨n4, ⟨h5, rfl⟩ | ⟨n5, ⟨h6, -, rfl⟩ | ⟨n6, hi, rfl⟩⟩⟩⟩⟩⟩⟩⟩ := h
  · exact ⟨h0, hr, hi⟩
  · exact ⟨h1, hr, hi⟩
  · exact ⟨h2, hr, rfl⟩
  · exact ⟨h3, hr, hi⟩
  · exact ⟨h4, hr, rfl⟩
  · exact ⟨h5, hr, rfl⟩
  · exact ⟨h6, hr, rfl⟩
  · exact ⟨opcode_seven_of_no_other hlt n0 n1 n2 n3 n4 n5 n6, hr, hi⟩

/-- R80: a word with the fields of a well-formed command decodes to it. -/
theorem decode_of_fields {w : Word} {i : Instr} (h : i.wellFormed = true) (hop : opField w = i.opcode)
    (hrsvd : rsvdField w = 0) (himm : imm8Field w = i.imm8) : decode w = .command i := by
  unfold decode
  rw [hop, hrsvd, himm]
  cases i with
  | rdr sel => exact if_pos (of_decide_eq_true h)
  | _ => rfl

theorem decode_eq_command_iff {w : Word} {i : Instr} :
    decode w = .command i ↔
      i.wellFormed = true ∧ opField w = i.opcode ∧ rsvdField w = 0 ∧ imm8Field w = i.imm8 :=
  ⟨fun h => ⟨wellFormed_of_decode h, fields_of_decode h⟩, fun ⟨h, hop, hrsvd, himm⟩ => decode_of_fields h hop hrsvd himm⟩

theorem decode_encode {i : Instr} (h : i.wellFormed = true) : decode (encode i) = .command i :=
  decode_eq_command_iff.2 ⟨h, fields_of_encode h⟩

/-- Settles O1: the word of a command has its fields, and the fields decide what a word decodes to. -/
theorem decodeOfEncodeIsTheCommand : Obligations.DecodeOfEncodeIsTheCommand :=
  fun _ => decode_encode

/-- Settles O2: the word is its three fields, and so is the command's word. -/
theorem encodeOfDecodeIsTheWord : Obligations.EncodeOfDecodeIsTheWord := by
  intro w i h
  obtain ⟨hwf, hop, hrsvd, himm⟩ := decode_eq_command_iff.1 h
  refine ⟨hwf, ?_⟩
  calc encode i = opField w ++ rsvdField w ++ imm8Field w := by rw [encode, hop, hrsvd, himm]; rfl
    _ = w := append_fields_of_word w

/-- Settles O3: each word is the word of its command. -/
theorem sampleWordsDecode : Obligations.SampleWordsDecode :=
  ⟨decode_encode (i := .nop) rfl, decode_encode (i := .kclr) rfl, decode_encode (i := .kpush 0x4B) rfl,
    decode_encode (i := .ksa) rfl, decode_encode (i := .prga 0x50) rfl,
    decode_encode (i := .srd 0xFF) rfl, decode_encode (i := .rdr 1) rfl,
    decode_encode (i := .srst) rfl⟩

end Sys2Proof
end

section
/-! The rows of the opcode map (R74). -/

namespace Sys2Proof

theorem opField_and (w v : Word) : opField (w &&& v) = opField w &&& opField v := BitVec.extractLsb'_and

theorem rsvdField_and (w v : Word) : rsvdField (w &&& v) = rsvdField w &&& rsvdField v := BitVec.extractLsb'_and

theorem imm8Field_and (w v : Word) : imm8Field (w &&& v) = imm8Field w &&& imm8Field v := BitVec.extractLsb'_and

/-- The bits of the operand byte that a row's mask tests (R74): all, none, or for RDR all but the low two. -/
def Instr.operandMask : Instr → Byte
  | .nop => 0xFF
  | .kclr => 0xFF
  | .kpush _ => 0x00
  | .ksa => 0xFF
  | .prga _ => 0x00
  | .srd _ => 0x00
  | .rdr _ => 0xFC
  | .srst => 0xFF

/-- Every row of a command tests the whole of `OP` and `RSVD`. -/
theorem fields_of_rowMask (i : Instr) :
    opField i.rowMask = BitVec.allOnes 4 ∧ rsvdField i.rowMask = BitVec.allOnes 20 ∧
      imm8Field i.rowMask = i.operandMask := by
  cases i <;> simp only [Instr.rowMask, Instr.operandMask] <;> decide

theorem fields_of_rowMatch (i : Instr) :
    opField i.rowMatch = i.opcode ∧ rsvdField i.rowMatch = 0 ∧ imm8Field i.rowMatch = 0 := by
  cases i <;> simp only [Instr.rowMatch, Instr.opcode] <;> decide

/-- A word selects a row by its opcode, a zero reserved field and an operand byte with no bit the row's mask tests. -/
theorem selectedBy_iff_fields {i : Instr} {w : Word} :
    i.selectedBy w = true ↔ opField w = i.opcode ∧ rsvdField w = 0 ∧ imm8Field w &&& i.operandMask = 0 := by
  obtain ⟨mop, mrsvd, mimm⟩ := fields_of_rowMask i
  obtain ⟨hop, hrsvd, himm⟩ := fields_of_rowMatch i
  rw [Instr.selectedBy, beq_iff_eq, word_eq_iff_fields, opField_and, rsvdField_and, imm8Field_and, mop, mrsvd, mimm, hop,
    hrsvd, himm, BitVec.and_allOnes, BitVec.and_allOnes]

/-- The command of the same row with the operand `b`, where the row has an operand. -/
def Instr.withOperand (b : Byte) : Instr → Instr
  | .nop => .nop
  | .kclr => .kclr
  | .kpush _ => .kpush b
  | .ksa => .ksa
  | .prga _ => .prga b
  | .srd _ => .srd b
  | .rdr _ => .rdr b
  | .srst => .srst

theorem withOperand_imm8 (i : Instr) : i.withOperand i.imm8 = i := by cases i <;> rfl

theorem opcode_withOperand (i : Instr) (b : Byte) : (i.withOperand b).opcode = i.opcode := by cases i <;> rfl

theorem selectedBy_withOperand (i : Instr) (b : Byte) (w : Word) : (i.withOperand b).selectedBy w = i.selectedBy w := by
  cases i <;> rfl

/-- RDR's mask leaves only the low two bits free, so that the selector is below 4. -/
theorem and_selectorMask {b : Byte} : b &&& 0xFC = 0 ↔ b < 4 := by
  revert b
  decide

/-- The bits of `IMM8` that a row's mask tests are those a legal operand of the row has zero (R73, R74). -/
theorem and_operandMask_iff {i : Instr} {b : Byte} :
    b &&& i.operandMask = 0 ↔ (i.withOperand b).wellFormed = true ∧ b = (i.withOperand b).imm8 := by
  have untested : b &&& 0x00 = 0 := BitVec.and_zero
  have unused : b &&& 0xFF = 0 ↔ true = true ∧ b = 0 := by
    rw [show (0xFF : Byte) = BitVec.allOnes 8 from rfl, BitVec.and_allOnes]
    simp
  cases i with
  | nop => exact unused
  | kclr => exact unused
  | kpush kb => exact iff_of_true untested ⟨rfl, rfl⟩
  | ksa => exact unused
  | prga d => exact iff_of_true untested ⟨rfl, rfl⟩
  | srd a => exact iff_of_true untested ⟨rfl, rfl⟩
  | rdr sel => exact and_selectorMask.trans ⟨fun h => ⟨decide_eq_true h, rfl⟩, fun ⟨h, _⟩ => of_decide_eq_true h⟩
  | srst => exact unused

/-- A word selects a command's row exactly when it decodes to the row's command with the word's operand byte. -/
theorem selectedBy_iff_decode {i : Instr} {w : Word} :
    i.selectedBy w = true ↔ decode w = .command (i.withOperand (imm8Field w)) := by
  rw [selectedBy_iff_fields, decode_eq_command_iff, and_operandMask_iff, opcode_withOperand]
  tauto

theorem selectedBy_of_decode {i : Instr} {w : Word} (h : decode w = .command i) : i.selectedBy w = true := by
  obtain ⟨-, -, himm⟩ := fields_of_decode h
  rw [selectedBy_iff_decode, himm, withOperand_imm8, h]

/-- R74, for any row: the words that decode to a command of the row are those that its mask and match select. -/
theorem decode_withOperand_iff_row (i : Instr) (w : Word) :
    (∃ b, decode w = .command (i.withOperand b)) ↔ w &&& i.rowMask = i.rowMatch := by
  constructor
  · rintro ⟨b, h⟩
    exact beq_iff_eq.1 ((selectedBy_withOperand i b w).symm.trans (selectedBy_of_decode h))
  · intro h
    exact ⟨imm8Field w, selectedBy_iff_decode.1 (beq_iff_eq.2 h)⟩

/-- The row of a command without operand holds that command alone. -/
theorem decode_iff_row {i : Instr} (h : ∀ b, i.withOperand b = i) (w : Word) :
    decode w = .command i ↔ w &&& i.rowMask = i.rowMatch := by
  simpa only [h, exists_const] using decode_withOperand_iff_row i w

/-- A word of the reserved row has the top bit of `OP` set (R79 item 1). -/
theorem decode_of_reserved_row {w : Word} (h : w &&& 0x80000000 = 0x80000000) : decode w = .illegal .reservedOpcode := by
  have top : ∀ op : BitVec 4, op &&& 8 = 8 → 8 ≤ op := by decide
  have hop : opField w &&& 8 = 8 := (opField_and w _).symm.trans (congrArg opField h)
  exact if_pos (top _ hop)

theorem decode_illegal_iff {w : Word} : (∃ r, decode w = .illegal r) ↔ ∀ i, decode w ≠ .command i := by
  cases decode w <;> simp

/-- No row is selected exactly when no command is decoded. -/
theorem selectedBy_none_iff {w : Word} : (∀ i : Instr, i.selectedBy w = false) ↔ ∀ i, decode w ≠ .command i := by
  constructor
  · intro h i hi
    exact Bool.false_ne_true ((h i).symm.trans (selectedBy_of_decode hi))
  · intro h i
    exact Bool.eq_false_iff.2 fun hs => h _ (selectedBy_iff_decode.1 hs)

/-- Settles O4: one row after the other, then the reserved row and the words outside every row. -/
theorem opcodeMapRowsSelectTheCommands : Obligations.OpcodeMapRowsSelectTheCommands := fun w =>
  ⟨decode_iff_row (i := .nop) (fun _ => rfl) w, decode_iff_row (i := .kclr) (fun _ => rfl) w,
    decode_withOperand_iff_row (.kpush 0) w, decode_iff_row (i := .ksa) (fun _ => rfl) w,
    decode_withOperand_iff_row (.prga 0) w, decode_withOperand_iff_row (.srd 0) w,
    decode_withOperand_iff_row (.rdr 0) w, decode_iff_row (i := .srst) (fun _ => rfl) w,
    fun h => ⟨_, decode_of_reserved_row h⟩, decode_illegal_iff.trans selectedBy_none_iff.symm⟩

end Sys2Proof
end

section
/-! The count of the legal words (R81): one word for each well-formed command. -/

namespace Sys2Proof
open Machine

theorem mem_positions (b : Byte) : b ∈ positions :=
  List.mem_map.2 ⟨b.toNat, List.mem_range.2 b.isLt, by simp⟩

theorem nodup_positions : positions.Nodup := by
  refine List.Nodup.map_on (fun a ha b hb e => ?_) List.nodup_range
  have hab : a % 256 = b % 256 := congrArg BitVec.toNat e
  rwa [Nat.mod_eq_of_lt (List.mem_range.1 ha), Nat.mod_eq_of_lt (List.mem_range.1 hb)] at hab

theorem length_positions : positions.length = 256 := by simp [positions]

/-- The register selectors (R35). -/
def selectors : List Byte := [0, 1, 2, 3]

theorem mem_selectors {b : Byte} : b ∈ selectors ↔ b < 4 := by
  revert b
  decide

/-- Every well-formed command once (R73): four without operand, then the rows of KPUSH, PRGA, SRD and RDR. -/
def legalCommands : List Instr :=
  [.nop, .kclr, .ksa, .srst] ++ positions.map .kpush ++ positions.map .prga ++ positions.map .srd ++ selectors.map .rdr

theorem length_legalCommands : legalCommands.length = 776 := by
  simp [legalCommands, length_positions, selectors]

theorem mem_legalCommands {i : Instr} : i ∈ legalCommands ↔ i.wellFormed = true := by
  cases i <;> simp [legalCommands, Instr.wellFormed, mem_positions, mem_selectors]

/-- Each row lists its operands once, and commands of two rows differ. -/
theorem nodup_legalCommands : legalCommands.Nodup := by
  have hkpush : (positions.map Instr.kpush).Nodup := nodup_positions.map fun _ _ => Instr.kpush.inj
  have hprga : (positions.map Instr.prga).Nodup := nodup_positions.map fun _ _ => Instr.prga.inj
  have hsrd : (positions.map Instr.srd).Nodup := nodup_positions.map fun _ _ => Instr.srd.inj
  have hrdr : (selectors.map Instr.rdr).Nodup := by decide
  simp [legalCommands, List.nodup_append, hkpush, hprga, hsrd, hrdr, or_imp, forall_and]

/-- No two well-formed commands share a word. -/
theorem encode_injOn {i j : Instr} (hi : i.wellFormed = true) (hj : j.wellFormed = true) (h : encode i = encode j) :
    i = j := by
  have e := decode_encode hi
  rw [h, decode_encode hj] at e
  exact (Decoded.command.inj e).symm

/-- Settles O6: the words of the legal commands, 4 + 3 · 256 + 4 of them. -/
theorem legalWordsNumber776 : Obligations.LegalWordsNumber776 := by
  refine ⟨legalCommands.map encode, ?_, ?_, fun w => ?_⟩
  · exact nodup_legalCommands.map_on fun i hi j hj => encode_injOn (mem_legalCommands.1 hi) (mem_legalCommands.1 hj)
  · rw [List.length_map, length_legalCommands]
  · rw [List.mem_map]
    constructor
    · rintro ⟨i, hi, rfl⟩
      exact ⟨i, decode_encode (mem_legalCommands.1 hi)⟩
    · rintro ⟨i, hi⟩
      obtain ⟨hwf, hw⟩ := encodeOfDecodeIsTheWord w i hi
      exact ⟨i, mem_legalCommands.2 hwf, hw⟩

end Sys2Proof
end

section
/-! The facade's sequence with an empty key (R85, R161, R162). -/

namespace Sys2Proof.Machine

/-- A command that responds at acceptance and the consumption of its response: two steps (R150). -/
theorem run_command {s t : State} {i : Instr} {c : Code} {d : Half} {moves : List Move} (hp : s.PHASE = .idle)
    (hr : s.RESP = none) (ha : s.agenda = hostMoves [i] ++ moves) (hwf : i.wellFormed = true)
    (he : exec i { s with agenda := .consume :: moves } = .next (respond c d t)) :
    Sys2Proof.core.run 2 s =
      .next { t with RESP := none, received := t.received ++ [responseWord c d], agenda := moves } :=
  run_issue_consume (t := respond c d t) hp hr ha ((accept_of_decode (decode_encode hwf) _).trans he) rfl
    (not_reservedCode c d) (exec_agenda he)

theorem hostMoves_append (is js : List Instr) : hostMoves (is ++ js) = hostMoves is ++ hostMoves js := by
  simp [hostMoves, wordMoves]

theorem hostMoves_cons (i : Instr) (is : List Instr) : hostMoves (i :: is) = hostMoves [i] ++ hostMoves is :=
  hostMoves_append [i] is

/-- `INIT` of an empty key: KCLR succeeds, and KSA then reports the empty key buffer (R100, R105). -/
theorem run_init_empty_key {s : State} {moves : List Move} (hp : s.PHASE = .idle) (hr : s.RESP = none)
    (ha : s.agenda = hostMoves (initSequence []) ++ moves) :
    Sys2Proof.core.run 4 s =
      .next { s with KLEN := 0, SVALID := false, agenda := moves,
                     received := s.received ++ [responseWord .ok 0, responseWord .invalidKey 0] } := by
  have kclr := run_command (moves := hostMoves [.ksa] ++ moves) hp hr ha rfl rfl
  have ksa := (run_add kclr 2).trans (run_command (i := .ksa) hp rfl rfl rfl rfl)
  simpa [clearSvalid, hr] using ksa

/-- Without a valid state each PRGA of a message responds `NOT_READY` and changes nothing (R120, R162). -/
theorem run_xor_not_ready {s : State} {msg : List Byte} {moves : List Move} (hp : s.PHASE = .idle) (hr : s.RESP = none)
    (hv : s.SVALID = false) (ha : s.agenda = hostMoves (xorSequence msg) ++ moves) :
    Sys2Proof.core.run (2 * msg.length) s =
      .next { s with agenda := moves,
                     received := s.received ++ List.replicate msg.length (responseWord .notReady 0) } := by
  induction msg generalizing s with
  | nil =>
    obtain rfl : s.agenda = moves := ha
    simp
  | cons d ds ih =>
    have prga := run_command (i := .prga d) (moves := hostMoves (xorSequence ds) ++ moves) hp hr
      (by rw [ha, ← List.append_assoc, ← hostMoves_cons]; rfl) rfl (execPrga_next.2 (.inl ⟨hv, rfl⟩))
    have run := (run_add prga (2 * ds.length)).trans (ih hp rfl hv rfl)
    rw [List.length_cons, Nat.mul_succ, Nat.add_comm]
    simpa [hr, List.replicate_succ] using run

/-- Settles O40: `INIT` of the empty key, then the message on an engine without a valid state. The response words stated are
those of `OK`, `INVALID_KEY` and `NOT_READY` by evaluation. -/
theorem facadeRejectsTheEmptyKey : Obligations.FacadeRejectsTheEmptyKey := by
  intro s msg rest hp hr ha
  refine ⟨rfl, ?_⟩
  rw [cipherSequence, hostMoves_append, List.append_assoc] at ha
  have run := (run_add (run_init_empty_key hp hr ha) (2 * msg.length)).trans (run_xor_not_ready hp hr rfl rfl)
  rw [List.append_assoc] at run
  rw [Nat.mul_add]
  exact run

end Sys2Proof.Machine
end

/-! ## Family 40_ksa: key loading, the key schedule, and the source's `ksa` -/

section
/-! An illegal word only responds (R79, R163); the words of the commands and of the `OK` responses. -/

namespace Sys2Proof
open Machine

theorem opcode_lt_eight (i : Instr) : i.opcode < 8#4 := by cases i <;> simp [Instr.opcode]

/-- NOP, KCLR, KSA and SRST have no operand (R73). -/
theorem imm8_of_unused {i : Instr} (h : i.opcode = 0 ∨ i.opcode = 1 ∨ i.opcode = 3 ∨ i.opcode = 7) : i.imm8 = 0 := by
  cases i <;> simp [Instr.opcode] at h <;> rfl

theorem imm8_of_rdr {i : Instr} (hwf : i.wellFormed = true) (h : i.opcode = 6) : i.imm8 < 4#8 := by
  cases i <;> simp [Instr.opcode] at h
  exact of_decide_eq_true hwf

/-- None of the four items of R79 is a word with the fields of a well-formed command. -/
theorem decode_ne_of_illegalWord {w : Word} (h : IllegalWord w) (i : Instr) : decode w ≠ .command i := by
  intro hi
  obtain ⟨hwf, hop, hrsvd, himm⟩ := decode_eq_command_iff.1 hi
  rw [IllegalWord, hop, hrsvd, himm] at h
  rcases h with h8 | hr | ⟨hun, him⟩ | ⟨h6, hsel⟩
  · exact BitVec.not_le.2 (opcode_lt_eight i) h8
  · exact hr rfl
  · exact him (imm8_of_unused hun)
  · exact BitVec.not_le.2 (imm8_of_rdr hwf h6) hsel

/-- A nonzero reserved field or operand makes the word of a command without operand illegal (R79 items 2 and 3). -/
theorem illegalWord_of_unused {w : Word} (hop : opField w = 0 ∨ opField w = 1 ∨ opField w = 3 ∨ opField w = 7)
    (h : rsvdField w ≠ 0 ∨ imm8Field w ≠ 0) : IllegalWord w :=
  .inr (h.imp_right fun hi => .inl ⟨hop, hi⟩)

/-- R163: an illegal word is accepted like any command and only responds. -/
theorem step_of_illegalWord {s : State} {w : Word} {rest : List Move} (ho : s.Offers w rest) (h : IllegalWord w) :
    step s = .next { s with agenda := rest, RESP := some 0x00030000 } := by
  obtain ⟨hp, hr, ha⟩ := ho
  rw [step_accepts hp hr ha]
  rcases accept_cases (w := w) rfl with ⟨i, hi, -⟩ | he
  · exact absurd hi (decode_ne_of_illegalWord h i)
  · exact he

/-- The word of a command is its row of the opcode map with the operand in the low byte (R70, R74). -/
theorem encode_eq_or (i : Instr) : encode i = i.rowMatch ||| i.imm8.setWidth 32 := by
  obtain ⟨hop, hrsvd, himm⟩ := fields_of_rowMatch i
  rw [← append_fields_of_word i.rowMatch, hop, hrsvd, himm, encode, BitVec.append_def, BitVec.append_def (y := 0)]
  simp

/-- The response `{OK, data}` is the data, widened (R76, R77). -/
theorem responseWord_ok (d : Half) : responseWord .ok d = d.setWidth 32 := by
  rw [BitVec.setWidth_eq_append (by decide)]
  rfl

/-- The response that carries a key length (R102). -/
theorem responseWord_ok_klen (n : Count) : responseWord .ok (zext16 n) = n.setWidth 32 := by
  rw [responseWord_ok, zext16, BitVec.setWidth_setWidth (by decide)]

end Sys2Proof
end

section
/-! The commands of key loading and the key schedule, and the KSA iteration (R100 to R106). -/

namespace Sys2Proof.Machine

/-- Settles O18: a second KCLR finds both registers cleared and the same response held. -/
theorem kclrEmptiesTheKey : Obligations.KclrEmptiesTheKey := by
  refine ⟨rfl, fun _ => rfl, ?_, fun s w rest ho hop h => ?_⟩
  · intro s t h
    cases h
    rfl
  · exact step_of_illegalWord ho (illegalWord_of_unused (.inr (.inl hop)) h)

theorem appendKey_of_lt {s : State} (h : s.KLEN.toNat < 256) (kb : Byte) :
    appendKey kb s = { s with KEY := Memory.write s.KEY (s.KLEN.setWidth 8) kb, KLEN := s.KLEN + 1 } :=
  ((appendKey_cases kb s).resolve_right fun hn => hn.1 h).2

theorem appendKey_of_not_lt {s : State} (h : ¬ s.KLEN.toNat < 256) (kb : Byte) : appendKey kb s = s :=
  ((appendKey_cases kb s).resolve_left fun hn => h hn.1).2

/-- KPUSH answers the appended key with its length as the response word (R102). -/
theorem exec_kpush (kb : Byte) (s : State) :
    exec (.kpush kb) s =
      .next { appendKey kb s with SVALID := false, RESP := some ((appendKey kb s).KLEN.setWidth 32) } := by
  rw [← responseWord_ok_klen]
  rfl

/-- Settles O19: KPUSH appends below 256 bytes and discards from there. -/
theorem kpushAppendsTheKeyByte : Obligations.KpushAppendsTheKeyByte := by
  refine ⟨fun kb => encode_eq_or (.kpush kb), fun s kb hk => ?_, fun s kb hk => ?_, fun s w rest ho _ hr => ?_⟩
  · rw [exec_kpush, appendKey_of_lt hk]
    exact ⟨_, rfl, read_write_same _ _ _, fun a ha => read_write_other _ kb ha, rfl⟩
  · rw [exec_kpush, appendKey_of_not_lt hk]
  · exact step_of_illegalWord ho (.inr (.inl hr))

/-- Settles O20: KSA reports the empty key, or starts from the identity table. -/
theorem ksaStartsTheSchedule : Obligations.KsaStartsTheSchedule := by
  refine ⟨rfl, fun s hk => ?_, fun s hk => ?_, fun s w rest ho hop h => ?_⟩
  · exact execKsa_next.2 (.inl ⟨hk, rfl⟩)
  · exact ⟨startSchedule s, execKsa_next.2 (.inr ⟨hk, rfl⟩), read_identity, rfl⟩
  · exact step_of_illegalWord ho (illegalWord_of_unused (.inr (.inr (.inl hop))) h)

theorem engineStep_of_ksa {s : State} (h : s.PHASE = .ksa) : engineStep s = ksaIteration s := by
  rw [engineStep, if_pos h]

/-- The last iteration completes the schedule (R106). -/
theorem endIteration_last (s : State) :
    endIteration 255#8 s =
      { s with I := 0, J := 0, SVALID := true, PHASE := .idle, KCTR := 0, RESP := some 0x00000000 } := rfl

theorem endIteration_of_ne {i : Byte} (h : i ≠ 255#8) (s : State) : endIteration i s = { s with KCTR := i + 1 } :=
  if_neg h

/-- An iteration whose three reads find bytes: the two cells exchanged and the new accumulator, then its end (R106). -/
theorem engineStep_of_reads {s : State} {si sj kb : Byte} (hp : s.PHASE = .ksa) (hk : s.KLEN ≠ 0)
    (hsi : Memory.read s.S s.KCTR = some si)
    (hkb : Memory.read s.KEY (BitVec.ofNat 8 (s.KCTR.toNat % s.KLEN.toNat)) = some kb)
    (hsj : Memory.read s.S (s.J + si + kb) = some sj) :
    engineStep s = .next (endIteration s.KCTR
      { s with S := (storeS (storeS s s.KCTR sj) (s.J + si + kb) si).S, J := s.J + si + kb }) := by
  rw [engineStep_of_ksa hp]
  exact ksaIteration_next.2 ⟨_, si, kb, sj, keyCell_eq_some.2 ⟨hk, rfl⟩, hsi, hkb, hsj, rfl⟩

@[simp] theorem endIteration_S (i : Byte) (s : State) : (endIteration i s).S = s.S := by
  unfold endIteration; split <;> rfl

/-- Settles O21: the reads of the swapped table, and the two ends of an iteration. -/
theorem ksaIterationSwapsAndAdvances : Obligations.KsaIterationSwapsAndAdvances := by
  constructor
  · intro s si sj kb hp hk hsi hkb hsj
    refine ⟨_, engineStep_of_reads hp hk hsi hkb hsj, ?_, ?_, ?_, ?_, ?_⟩
    · rw [endIteration_S, read_swapped, if_pos rfl]
      split
      · rename_i e
        rwa [← e, hsi] at hsj
      · rfl
    · rw [endIteration_S, read_swapped, if_pos rfl]
    · intro a hi hj
      rw [endIteration_S, read_swapped, if_neg hj, if_neg hi]
    · intro h
      rw [h, endIteration_last]
    · intro h
      rw [endIteration_of_ne h]
  · intro s hp
    rw [engineStep, if_neg hp]

end Sys2Proof.Machine
end

section
/-! The source's key schedule (R103, R104, R108), by induction on the number of rounds taken. -/

namespace Sys2Proof.Machine

/-- The table and the accumulator of `ksa(key)` after its first `n` rounds (R103 step 3). -/
def sourceKsaAfter (key : List Byte) (n : Nat) : Table × Byte :=
  sourceKsaRounds key ((List.range n).map (BitVec.ofNat 8))

theorem sourceKsaAfter_succ (key : List Byte) (n : Nat) :
    sourceKsaAfter key (n + 1) = sourceKsaRound key (sourceKsaAfter key n) (BitVec.ofNat 8 n) := by
  simp [sourceKsaAfter, sourceKsaRounds, List.range_succ]

@[simp] theorem sourceKsa_nil : sourceKsa [] = none := rfl

theorem sourceKsa_of_ne_nil {key : List Byte} (h : key ≠ []) : sourceKsa key = some (sourceKsaAfter key 256).1 :=
  if_neg h

theorem sourceSwap_eq_comp (T : Table) (a b : Byte) : sourceSwap T a b = T ∘ Equiv.swap a b := by
  funext x
  simp only [sourceSwap, Function.comp_apply, Equiv.swap_apply_def]
  split_ifs <;> rfl

theorem bijective_sourceKsaAfter (key : List Byte) (n : Nat) : Function.Bijective (sourceKsaAfter key n).1 := by
  induction n with
  | zero => exact Function.bijective_id
  | succ n ih =>
    rw [sourceKsaAfter_succ, sourceKsaRound, sourceSwap_eq_comp]
    exact ih.comp (Equiv.bijective _)

/-- Settles O36: the identity is a bijection, and every round swaps two cells of one. -/
theorem sourceScheduleGivesAPermutation : Obligations.SourceScheduleGivesAPermutation :=
  ⟨rfl, fun key h => ⟨_, sourceKsa_of_ne_nil h, bijective_sourceKsaAfter key 256⟩⟩

/-- The rounds see a key only through the bytes `key[i mod L]` (R103). -/
theorem sourceKsaAfter_congr {key key' : List Byte} (h : ∀ i, sourceKeyByte key i = sourceKeyByte key' i) (n : Nat) :
    sourceKsaAfter key n = sourceKsaAfter key' n := by
  induction n with
  | zero => rfl
  | succ n ih => rw [sourceKsaAfter_succ, sourceKsaAfter_succ, ih, sourceKsaRound, sourceKsaRound, h]

theorem sourceKsa_congr {key key' : List Byte} (hn : key ≠ []) (hn' : key' ≠ [])
    (h : ∀ i, sourceKeyByte key i = sourceKeyByte key' i) : sourceKsa key = sourceKsa key' := by
  rw [sourceKsa_of_ne_nil hn, sourceKsa_of_ne_nil hn', sourceKsaAfter_congr h]

/-- R104 item 1: no round reads a key byte at index 256 or above. -/
theorem sourceKeyByte_take {key : List Byte} (h : 256 < key.length) (i : Byte) :
    sourceKeyByte key i = sourceKeyByte (key.take 256) i := by
  have hi : i.toNat < 256 := i.isLt
  have hlen : (key.take 256).length = 256 := List.length_take_of_le h.le
  rw [sourceKeyByte, sourceKeyByte, hlen, Nat.mod_eq_of_lt hi, Nat.mod_eq_of_lt (hi.trans h),
    List.getD_eq_getElem?_getD, List.getD_eq_getElem?_getD, List.getElem?_take_of_lt hi]

/-- Position `j` of a key repeated `m` times holds the key's byte `j mod L`. -/
theorem getD_flatten_replicate (key : List Byte) {m j : Nat} (h : j < m * key.length) :
    (List.replicate m key).flatten.getD j 0 = key.getD (j % key.length) 0 := by
  induction m generalizing j with
  | zero => omega
  | succ m ih =>
    rw [List.replicate_succ, List.flatten_cons]
    rcases Nat.lt_or_ge j key.length with hlt | hge
    · rw [List.getD_append _ _ _ _ hlt, Nat.mod_eq_of_lt hlt]
    · rw [Nat.succ_mul] at h
      rw [List.getD_append_right _ _ _ _ hge, ih (by omega), Nat.mod_eq_sub_mod hge]

/-- R104 item 3: the bytes of a key repeated `m` times are those of the key. -/
theorem sourceKeyByte_flatten_replicate {key : List Byte} (hn : key ≠ []) {m : Nat} (hm : 1 ≤ m) (i : Byte) :
    sourceKeyByte (List.replicate m key).flatten i = sourceKeyByte key i := by
  have hpos : 0 < m * key.length := Nat.mul_pos hm (List.length_pos_iff.2 hn)
  have hlen : (List.replicate m key).flatten.length = m * key.length := by simp
  rw [sourceKeyByte, sourceKeyByte, hlen, getD_flatten_replicate key (Nat.mod_lt _ hpos), Nat.mod_mul_left_mod]

/-- Settles O37: in both items the two keys have the same byte for every round. -/
theorem keyLengthLawsOfTheSchedule : Obligations.KeyLengthLawsOfTheSchedule := by
  constructor
  · intro key h
    have hn : key ≠ [] := List.length_pos_iff.1 (by omega)
    exact sourceKsa_congr hn (by simpa using hn) (sourceKeyByte_take h)
  · intro key m hm
    by_cases hn : key = []
    · simp [hn]
    · have hn' : (List.replicate m key).flatten ≠ [] := by
        simpa [hn] using Nat.one_le_iff_ne_zero.1 hm
      exact sourceKsa_congr hn' hn (sourceKeyByte_flatten_replicate hn hm)

end Sys2Proof.Machine
end

section
/-! Key loading: KCLR and one KPUSH per byte (R101). -/

namespace Sys2Proof.Machine

/-- The key buffer `K` with length `n` holds the first 256 bytes of `key`, loaded over the buffer `K0` (R101). -/
structure LoadedKey (K0 K : Memory) (n : Count) (key : List Byte) : Prop where
  length : n.toNat = min key.length 256
  held : ∀ k : Nat, k < min key.length 256 → Memory.read K (BitVec.ofNat 8 k) = key[k]?
  frame : ∀ a : Byte, key.length ≤ a.toNat → Memory.read K a = Memory.read K0 a

theorem loadedKey_nil (K : Memory) : LoadedKey K K 0 [] where
  length := rfl
  held k h := absurd h (by simp)
  frame _ _ := rfl

/-- One read after one write, the cells given by their indices. -/
theorem read_write_ofNat (m : Memory) {k l : Nat} (hk : k < 256) (hl : l < 256) (v : Byte) :
    Memory.read (Memory.write m (BitVec.ofNat 8 l) v) (BitVec.ofNat 8 k) =
      if k = l then some v else Memory.read m (BitVec.ofNat 8 k) := by
  have hkl : BitVec.ofNat 8 k = BitVec.ofNat 8 l ↔ k = l := by
    rw [← BitVec.toNat_inj, BitVec.toNat_ofNat, BitVec.toNat_ofNat, Nat.mod_eq_of_lt hk, Nat.mod_eq_of_lt hl]
  simp only [read_write, hkl]

/-- Below 256 bytes the next byte goes to the cell of its index (R102). -/
theorem LoadedKey.push {K0 K : Memory} {n : Count} {key : List Byte} (h : LoadedKey K0 K n key) (hn : n.toNat < 256)
    (kb : Byte) : LoadedKey K0 (Memory.write K (n.setWidth 8) kb) (n + 1) (key ++ [kb]) := by
  have hlen : n.toNat = key.length := by have := h.length; omega
  have hcell : n.setWidth 8 = BitVec.ofNat 8 key.length := by rw [← hlen, BitVec.ofNat_toNat]
  have hlen' : (key ++ [kb]).length = key.length + 1 := by simp
  rw [hcell]
  refine ⟨?_, fun k hk => ?_, fun a ha => ?_⟩
  · rw [toNat_klen_succ hn]
    omega
  · rw [read_write_ofNat K (by omega) (by omega)]
    split
    · rename_i e
      rw [e, List.getElem?_concat_length]
    · rw [List.getElem?_append_left (by omega)]
      exact h.held k (by omega)
  · have hne : a ≠ BitVec.ofNat 8 key.length := by
      rintro rfl
      rw [BitVec.toNat_ofNat, Nat.mod_eq_of_lt (by omega)] at ha
      omega
    rw [read_write_other K kb hne]
    exact h.frame a (by omega)

/-- With 256 bytes held the next byte is one beyond those the buffer holds (R101, R102). -/
theorem LoadedKey.discard {K0 K : Memory} {n : Count} {key : List Byte} (h : LoadedKey K0 K n key) (hn : ¬ n.toNat < 256)
    (kb : Byte) : LoadedKey K0 K n (key ++ [kb]) := by
  have hlen : 256 ≤ key.length := by have := h.length; omega
  have hlen' : (key ++ [kb]).length = key.length + 1 := by simp
  refine ⟨?_, fun k hk => ?_, fun a ha => h.frame a (by omega)⟩
  · rw [h.length]
    omega
  · rw [List.getElem?_append_left (by omega)]
    exact h.held k (by omega)

theorem loadedKey_appendKey {K0 : Memory} {s : State} {key : List Byte} (h : LoadedKey K0 s.KEY s.KLEN key) (kb : Byte) :
    LoadedKey K0 (appendKey kb s).KEY (appendKey kb s).KLEN (key ++ [kb]) := by
  rcases appendKey_cases kb s with ⟨hlt, e⟩ | ⟨hge, e⟩
  · rw [e]
    exact h.push hlt kb
  · rw [e]
    exact h.discard hge kb

/-- The response that carries a key length, by the length's value (R102). -/
theorem responseWord_ok_of_klen {n : Count} {k : Nat} (h : n.toNat = k) : responseWord .ok (zext16 n) = BitVec.ofNat 32 k := by
  rw [responseWord_ok_klen, ← h, BitVec.ofNat_toNat]

/-- The `L` responses of the pushes of `KEY key` (R101, R102). -/
def pushResponses (L : Nat) : List Word := (List.range L).map fun k => BitVec.ofNat 32 (min (k + 1) 256)

@[simp] theorem pushResponses_zero : pushResponses 0 = [] := rfl

theorem pushResponses_succ (L : Nat) : pushResponses (L + 1) = pushResponses L ++ [BitVec.ofNat 32 (min (L + 1) 256)] := by
  simp [pushResponses, List.range_succ]

@[simp] theorem appendKey_KCTR (kb : Byte) (s : State) : (appendKey kb s).KCTR = s.KCTR := by
  rcases appendKey_cases kb s with ⟨-, e⟩ | ⟨-, e⟩ <;> rw [e]

@[simp] theorem appendKey_received (kb : Byte) (s : State) : (appendKey kb s).received = s.received := by
  rcases appendKey_cases kb s with ⟨-, e⟩ | ⟨-, e⟩ <;> rw [e]

/-- KPUSH reads nothing of the host's moves. -/
theorem appendKey_withAgenda (kb : Byte) (s : State) (g : List Move) :
    appendKey kb { s with agenda := g } = { appendKey kb s with agenda := g } := by
  cases h : pushCell s.KLEN <;> simp [appendKey, h, storeKey]

/-- KPUSH and the consumption of its response (R102). -/
theorem run_kpush {s : State} {kb : Byte} {moves : List Move} (hp : s.PHASE = .idle) (hr : s.RESP = none)
    (ha : s.agenda = hostMoves [.kpush kb] ++ moves) :
    Sys2Proof.core.run 2 s =
      .next { s with KEY := (appendKey kb s).KEY, KLEN := (appendKey kb s).KLEN, SVALID := false, agenda := moves,
                     received := s.received ++ [responseWord .ok (zext16 (appendKey kb s).KLEN)] } := by
  rw [run_command (i := .kpush kb) hp hr ha rfl rfl, appendKey_withAgenda]
  simp [clearSvalid, hr]

/-- The state after the moves of `KEY key` with `L` bytes: the buffer `K` with length `n`, and the responses (R101). -/
def keyLoaded (s : State) (K : Memory) (n : Count) (L : Nat) (moves : List Move) : State :=
  { s with KEY := K, KLEN := n, SVALID := false, agenda := moves,
           received := s.received ++ 0x00000000 :: pushResponses L }

/-- The moves of `KEY key` load the key (R101): one more byte of the key is one more KPUSH. -/
theorem run_keySequence (key : List Byte) {s : State} {moves : List Move} (hp : s.PHASE = .idle) (hr : s.RESP = none)
    (ha : s.agenda = hostMoves (keySequence key) ++ moves) :
    ∃ (K : Memory) (n : Count), LoadedKey s.KEY K n key ∧
      Sys2Proof.core.run (2 * (1 + key.length)) s = .next (keyLoaded s K n key.length moves) := by
  induction key using List.reverseRecOn generalizing moves with
  | nil =>
    refine ⟨s.KEY, 0, loadedKey_nil _, ?_⟩
    have kclr := run_command (i := .kclr) hp hr ha rfl rfl
    simpa [keyLoaded, clearSvalid, hr, responseWord_ok] using kclr
  | append_singleton key kb ih =>
    have hseq : hostMoves (keySequence (key ++ [kb])) = hostMoves (keySequence key) ++ hostMoves [.kpush kb] := by
      rw [← hostMoves_append]
      simp [keySequence]
    obtain ⟨K, n, hK, run⟩ := ih (moves := hostMoves [.kpush kb] ++ moves) (by rw [ha, hseq, List.append_assoc])
    have push := (run_add run 2).trans (run_kpush hp hr rfl)
    have hK' := loadedKey_appendKey (s := keyLoaded s K n key.length (hostMoves [.kpush kb] ++ moves)) hK kb
    have hlen := hK'.length
    rw [List.length_append, List.length_singleton] at hlen
    refine ⟨_, _, hK', ?_⟩
    rw [List.length_append, List.length_singleton, ← Nat.add_assoc, Nat.mul_succ, push, responseWord_ok_of_klen hlen]
    simp [keyLoaded, pushResponses_succ]

/-- Settles O34: what the loaded buffer holds, read off the run of `KEY key`. -/
theorem keyLoadingHoldsTheKey : Obligations.KeyLoadingHoldsTheKey := by
  intro s key rest hp hr ha
  obtain ⟨K, n, hK, run⟩ := run_keySequence key hp hr ha
  exact ⟨_, run, hK.length, hK.held, hK.frame, rfl⟩

end Sys2Proof.Machine
end

section
/-! A completed key schedule holds the source's `ksa(key)` (R107): each iteration is one round of R103. -/

namespace Sys2Proof.Machine

/-- The memory `m` holds the table `T` of the source (R21, R103). -/
def Memory.Holds (m : Memory) (T : Table) : Prop := ∀ a : Byte, Memory.read m a = some (T a)

/-- The key buffer `K` with length `n` holds exactly the nonempty key `key` (R101). -/
structure HoldsKey (K : Memory) (n : Count) (key : List Byte) : Prop where
  ne_nil : key ≠ []
  length : n.toNat = key.length
  held : ∀ k : Nat, k < key.length → Memory.read K (BitVec.ofNat 8 k) = key[k]?

theorem HoldsKey.klen_ne_zero {K : Memory} {n : Count} {key : List Byte} (h : HoldsKey K n key) : n ≠ 0 := by
  rintro rfl
  exact h.ne_nil (List.length_eq_zero_iff.1 h.length.symm)

/-- The key byte iteration `i` reads is the source's `key[i mod L]` (R103, R106). -/
theorem HoldsKey.read {K : Memory} {n : Count} {key : List Byte} (h : HoldsKey K n key) (i : Byte) :
    Memory.read K (BitVec.ofNat 8 (i.toNat % n.toNat)) = some (sourceKeyByte key i) := by
  have hlt : i.toNat % key.length < key.length := Nat.mod_lt _ (List.length_pos_iff.2 h.ne_nil)
  rw [h.length, h.held _ hlt, sourceKeyByte, List.getElem?_eq_getElem hlt, List.getD_eq_getElem _ _ hlt]

/-- The engine's swap on a table it holds is the source's (R57, R103). -/
theorem holds_swap {s : State} {T : Table} (h : Memory.Holds s.S T) (a b : Byte) :
    Memory.Holds (storeS (storeS s a (T b)) b (T a)).S (sourceSwap T a b) := by
  intro c
  rw [read_swapped, sourceSwap]
  split_ifs with hb ha ha
  · rw [← ha, hb]
  · rfl
  · rfl
  · exact h c

/-- An iteration is one round of the source on the table and the accumulator, then its end (R103, R106). -/
theorem engineStep_of_holds {s : State} {key : List Byte} {T : Table} (hp : s.PHASE = .ksa)
    (hk : HoldsKey s.KEY s.KLEN key) (hS : Memory.Holds s.S T) :
    ∃ m : Memory, Memory.Holds m (sourceKsaRound key (T, s.J) s.KCTR).1 ∧
      engineStep s = .next (endIteration s.KCTR { s with S := m, J := (sourceKsaRound key (T, s.J) s.KCTR).2 }) :=
  ⟨_, holds_swap hS s.KCTR (sourceKsaRound key (T, s.J) s.KCTR).2,
    engineStep_of_reads hp hk.klen_ne_zero (hS _) (hk.read _) (hS _)⟩

/-- In `s` a schedule of `key` is in progress, and the host waits for its response. -/
structure State.Schedules (s : State) (key : List Byte) (rest : List Move) : Prop where
  phase : s.PHASE = .ksa
  resp : s.RESP = none
  agenda : s.agenda = .consume :: rest
  key : HoldsKey s.KEY s.KLEN key

/-- `s` at iteration `n` of its schedule, with the table `m` and the accumulator `j`. -/
def scheduleAt (s : State) (m : Memory) (j : Byte) (n : Nat) : State := { s with S := m, J := j, KCTR := BitVec.ofNat 8 n }

/-- Iteration `n` of the schedule is round `n` of the source. -/
theorem step_scheduleAt {s : State} {key : List Byte} {rest : List Move} (h : s.Schedules key rest) {m : Memory} {n : Nat}
    (hm : Memory.Holds m (sourceKsaAfter key n).1) :
    ∃ m' : Memory, Memory.Holds m' (sourceKsaAfter key (n + 1)).1 ∧
      step (scheduleAt s m (sourceKsaAfter key n).2 n) =
        .next (endIteration (BitVec.ofNat 8 n) (scheduleAt s m' (sourceKsaAfter key (n + 1)).2 n)) := by
  rw [step_waits (s := scheduleAt s m _ n) h.resp h.agenda, sourceKsaAfter_succ]
  exact engineStep_of_holds (s := scheduleAt s m _ n) h.phase h.key hm

/-- Every iteration but the last leads to the next one (R106). -/
theorem endIteration_scheduleAt {n : Nat} (hn : n < 255) (s : State) (m : Memory) (j : Byte) :
    endIteration (BitVec.ofNat 8 n) (scheduleAt s m j n) = scheduleAt s m j (n + 1) := by
  have hne : BitVec.ofNat 8 n ≠ 255#8 := by
    rw [ne_eq, ← BitVec.toNat_inj, BitVec.toNat_ofNat, BitVec.toNat_ofNat]
    omega
  rw [endIteration_of_ne hne, scheduleAt, scheduleAt, BitVec.ofNat_add]
  rfl

/-- The iterations before the last, from the identity table and `J = KCTR = 0`, by induction on their number. -/
theorem run_scheduleAt {s : State} {key : List Byte} {rest : List Move} (h : s.Schedules key rest) {n : Nat} (hn : n < 256) :
    ∃ m : Memory, Memory.Holds m (sourceKsaAfter key n).1 ∧
      Sys2Proof.core.run n (scheduleAt s Memory.identity 0 0) = .next (scheduleAt s m (sourceKsaAfter key n).2 n) := by
  induction n with
  | zero => exact ⟨Memory.identity, read_identity, rfl⟩
  | succ n ih =>
    obtain ⟨m, hm, run⟩ := ih (by omega)
    obtain ⟨m', hm', hstep⟩ := step_scheduleAt h hm
    rw [endIteration_scheduleAt (by omega)] at hstep
    exact ⟨m', hm', (run_add run 1).trans (run_of_step hstep 0)⟩

/-- The whole schedule: 255 iterations go on, and the last completes it with the source's table (R106, R107). -/
theorem run_schedule {s : State} {key : List Byte} {rest : List Move} (h : s.Schedules key rest) :
    ∃ m : Memory, Memory.Holds m (sourceKsaAfter key 256).1 ∧
      Sys2Proof.core.run 256 (scheduleAt s Memory.identity 0 0) =
        .next { s with S := m, I := 0, J := 0, SVALID := true, PHASE := .idle, KCTR := 0, RESP := some 0x00000000 } := by
  obtain ⟨m, hm, run⟩ := run_scheduleAt h (show 255 < 256 by omega)
  obtain ⟨m', hm', hlast⟩ := step_scheduleAt h hm
  rw [endIteration_last] at hlast
  exact ⟨m', hm', (run_add run 1).trans (run_of_step hlast 0)⟩

/-- Settles O35: KSA is accepted, the schedule runs to its end, and its response is consumed. -/
theorem keyScheduleAgreesWithTheSource : Obligations.KeyScheduleAgreesWithTheSource := by
  intro s key rest hp hr hn hlen _ hheld ha
  have hk : HoldsKey s.KEY s.KLEN key := ⟨hn, hlen, hheld⟩
  have haccept : step s = .next (startSchedule { s with agenda := .consume :: rest }) := by
    rw [step_accepts hp hr ha, accept_of_decode (decode_encode (i := .ksa) rfl)]
    exact execKsa_next.2 (.inr ⟨hk.klen_ne_zero, rfl⟩)
  obtain ⟨m, hm, run⟩ := run_schedule (s := startSchedule { s with agenda := .consume :: rest }) ⟨rfl, hr, rfl, hk⟩
  have hconsume := (run_add run 1).trans (run_of_step (step_consume rfl (by decide) rfl) 0)
  exact ⟨_, _, (run_of_step haccept (256 + 1)).trans hconsume, sourceKsa_of_ne_nil hn, hm, rfl⟩

end Sys2Proof.Machine
end

/-! ## Family 41_prga: PRGA, the keystream, and the cipher as its own inverse -/

section
/-! The rounds of the source's keystream loop (R121). -/

namespace Sys2Proof.Machine

@[simp] theorem sourceSwap_left (T : Table) (a b : Byte) : sourceSwap T a b a = T b := by
  rw [sourceSwap_eq_comp, Function.comp_apply, Equiv.swap_apply_left]

@[simp] theorem sourceSwap_right (T : Table) (a b : Byte) : sourceSwap T a b b = T a := by
  rw [sourceSwap_eq_comp, Function.comp_apply, Equiv.swap_apply_right]

theorem sourceSwap_other (T : Table) {a b x : Byte} (ha : x ≠ a) (hb : x ≠ b) : sourceSwap T a b x = T x := by
  rw [sourceSwap_eq_comp, Function.comp_apply, Equiv.swap_apply_of_ne_of_ne ha hb]

/-- The index `j` after one round of R121. -/
def prgaIndex (T : Table) (i j : Byte) : Byte := j + T (i + 1)

/-- The table after one round of R121. -/
def prgaTable (T : Table) (i j : Byte) : Table := sourceSwap T (i + 1) (prgaIndex T i j)

/-- The keystream byte `k` of one round of R121, read after the swap. -/
def prgaByte (T : Table) (i j : Byte) : Byte :=
  prgaTable T i j (prgaTable T i j (i + 1) + prgaTable T i j (prgaIndex T i j))

theorem sourcePrga_cons (T : Table) (i j d : Byte) (ds : List Byte) :
    sourcePrga T i j (d :: ds) =
      ((d ^^^ prgaByte T i j) :: (sourcePrga (prgaTable T i j) (i + 1) (prgaIndex T i j) ds).1,
        (sourcePrga (prgaTable T i j) (i + 1) (prgaIndex T i j) ds).2) := rfl

/-- The loop on a message in two parts goes on where the first part left it. -/
theorem sourcePrga_append (T : Table) (i j : Byte) (ds es : List Byte) :
    sourcePrga T i j (ds ++ es) =
      let r := sourcePrga T i j ds
      let r' := sourcePrga r.2.1 r.2.2.1 r.2.2.2 es
      (r.1 ++ r'.1, r'.2) := by
  induction ds generalizing T i j with
  | nil => rfl
  | cons d ds ih => simp only [List.cons_append, sourcePrga_cons, ih]

@[simp] theorem length_sourcePrga (T : Table) (i j : Byte) (ds : List Byte) :
    (sourcePrga T i j ds).1.length = ds.length := by
  induction ds generalizing T i j with
  | nil => rfl
  | cons d ds ih => rw [sourcePrga_cons, List.length_cons, List.length_cons, ih]

/-- R126: the rounds do not see the data, so each byte meets the same keystream byte twice. -/
theorem sourcePrga_sourcePrga (T : Table) (i j : Byte) (ds : List Byte) :
    (sourcePrga T i j (sourcePrga T i j ds).1).1 = ds := by
  induction ds generalizing T i j with
  | nil => rfl
  | cons d ds ih => rw [sourcePrga_cons, sourcePrga_cons, ih, BitVec.xor_assoc, BitVec.xor_self, BitVec.xor_zero]

theorem length_of_sourceCipher {key msg out : List Byte} (h : sourceCipher key msg = some out) :
    out.length = msg.length := by
  obtain ⟨T, -, rfl⟩ := Option.map_eq_some_iff.1 h
  exact length_sourcePrga T 0 0 msg

/-- R126: the source's cipher with one key is its own inverse. -/
theorem sourceCipher_of_sourceCipher {key msg out : List Byte} (h : sourceCipher key msg = some out) :
    sourceCipher key out = some msg := by
  obtain ⟨T, hT, rfl⟩ := Option.map_eq_some_iff.1 h
  rw [sourceCipher, hT, Option.map_some, sourcePrga_sourcePrga]

end Sys2Proof.Machine
end

section
/-! PRGA (R120): one round of the source on the table the engine holds. -/

namespace Sys2Proof.Machine

/-- The response `{OK, b}` to a PRGA command is the byte, widened (R76, R120). -/
theorem responseWord_ok_byte (b : Byte) : responseWord .ok (zext16 b) = b.setWidth 32 := by
  rw [responseWord_ok, zext16, BitVec.setWidth_setWidth (by decide)]

/-- The output byte of a response is the byte it carries (R85). -/
theorem outputByte_responseWord (b : Byte) : (responseWord .ok (zext16 b)).extractLsb' 0 8 = b := by
  rw [responseWord_ok_byte, BitVec.setWidth_eq_append (by decide)]
  exact BitVec.extractLsb'_append_eq_right

/-- With a valid state PRGA is one round of the source on the table the engine holds (R120, R127). -/
theorem exec_prga_of_holds {s : State} {T : Table} (hv : s.SVALID = true) (hS : Memory.Holds s.S T) :
    ∃ m : Memory, Memory.Holds m (prgaTable T s.I s.J) ∧
      ∀ d : Byte, exec (.prga d) s = .next (respond .ok (zext16 (d ^^^ prgaByte T s.I s.J))
        { s with S := m, I := s.I + 1, J := prgaIndex T s.I s.J }) := by
  have hm := holds_swap (s := { s with I := s.I + 1, J := prgaIndex T s.I s.J }) hS (s.I + 1) (prgaIndex T s.I s.J)
  exact ⟨_, hm, fun d =>
    execPrga_next.2 (.inr ⟨hv, _, _, _, _, _, _, hS _, hS _, rfl, hm _, hm _, hm _, rfl⟩)⟩

/-- Settles O22: the cells `S` holds form a table of the source, and PRGA is one round on it. -/
theorem prgaReturnsTheCombinedByte : Obligations.PrgaReturnsTheCombinedByte := by
  refine ⟨fun d => encode_eq_or (.prga d), fun s d hv => ?_, fun s d hv hread => ?_, fun s w rest ho _ hr => ?_⟩
  · exact execPrga_next.2 (.inl ⟨hv, rfl⟩)
  · choose T hS using hread
    obtain ⟨m, hm, hexec⟩ := exec_prga_of_holds hv hS
    refine ⟨_, T (s.I + 1), T (prgaIndex T s.I s.J), prgaByte T s.I s.J, hexec d, hS _, hS _, ?_, ?_, ?_, ?_, ?_⟩
    · exact (hm _).trans (congrArg some (sourceSwap_left T _ _))
    · exact (hm _).trans (congrArg some (sourceSwap_right T _ _))
    · intro a hi hj
      exact (hm a).trans ((congrArg some (sourceSwap_other T hi hj)).trans (hS a).symm)
    · simpa [prgaByte, prgaTable] using hm (T (prgaIndex T s.I s.J) + T (s.I + 1))
    · rw [← responseWord_ok_byte]
      rfl
  · exact step_of_illegalWord ho (.inr (.inl hr))

/-- A PRGA command that completes has a keystream byte and a next state that are the same for every data byte (R120). -/
theorem exec_prga_forall_data {s t : State} {d : Byte} (hv : s.SVALID = true) (h : exec (.prga d) s = .next t) :
    ∃ (k : Byte) (u : State), ∀ d' : Byte, exec (.prga d') s = .next (respond .ok (zext16 (d' ^^^ k)) u) := by
  rcases execPrga_next.1 h with ⟨hv', -⟩ | ⟨-, si, sj, x, y, k, u, hsi, hsj, hu, hx, hy, hk, -⟩
  · exact absurd (hv.symm.trans hv') (by decide)
  · exact ⟨k, u, fun d' => execPrga_next.2 (.inr ⟨hv, si, sj, x, y, k, u, hsi, hsj, hu, hx, hy, hk, rfl⟩)⟩

theorem responseWord_xor_keystream (d d' k : Byte) :
    responseWord .ok (zext16 (d ^^^ k)) ^^^ responseWord .ok (zext16 (d' ^^^ k)) = (d ^^^ d').setWidth 32 := by
  rw [responseWord_ok_byte, responseWord_ok_byte, ← BitVec.setWidth_xor, BitVec.xor_comm d' k, BitVec.xor_assoc,
    ← BitVec.xor_assoc k, BitVec.xor_self, BitVec.zero_xor]

/-- Settles O31: both commands leave one state with their own response, and the keystream byte cancels. -/
theorem keystreamDoesNotDependOnTheData : Obligations.KeystreamDoesNotDependOnTheData := by
  intro s t t' d d' hv h h'
  obtain ⟨k, u, hexec⟩ := exec_prga_forall_data hv h
  obtain rfl := Host.Outcome.next.inj (h.symm.trans (hexec d))
  obtain rfl := Host.Outcome.next.inj (h'.symm.trans (hexec d'))
  exact ⟨_, _, rfl, rfl, responseWord_xor_keystream d d' k, rfl⟩

end Sys2Proof.Machine
end

section
/-! NOP, SRD and RDR on an engine with a valid state: each is accepted and only responds (R122, R140 to R142). -/

namespace Sys2Proof.Machine

theorem opField_encode (i : Instr) : opField (encode i) = i.opcode := by
  rw [opField, encode, BitVec.extractLsb'_append_eq_of_le (by decide), BitVec.extractLsb'_append_eq_left]

theorem imm8Field_encode (i : Instr) : imm8Field (encode i) = i.imm8 :=
  BitVec.extractLsb'_append_eq_right

/-- The one operand a command may not carry is a reserved selector of RDR, and its word is illegal (R73, R79 item 4). -/
theorem illegalWord_encode {i : Instr} (h : ¬ i.wellFormed = true) : IllegalWord (encode i) := by
  cases i with
  | rdr sel =>
    have hsel : 4#8 ≤ sel := BitVec.not_lt.1 fun hlt => h (decide_eq_true hlt)
    exact .inr (.inr (.inr ⟨opField_encode _, by rwa [imm8Field_encode]⟩))
  | _ => exact absurd rfl h

theorem accept_of_illegalWord {w : Word} (h : IllegalWord w) (s : State) : accept w s = .next (respond .illegal 0 s) :=
  (accept_cases rfl).resolve_left fun ⟨i, hi, _⟩ => decode_ne_of_illegalWord h i hi

theorem exec_of_observes {i : Instr} {s : State} {T : Table} (ho : observes i = true) (hv : s.SVALID = true)
    (hS : Memory.Holds s.S T) : ∃ (c : Code) (d : Half), exec i s = .next (respond c d s) := by
  cases i with
  | nop => exact ⟨.ok, 0, rfl⟩
  | srd a => exact ⟨.ok, zext16 (T a), (if_pos hv).trans (fetchS_of_read _ (hS a))⟩
  | rdr sel =>
    obtain ⟨t, h⟩ := execRdr_answers sel s
    obtain ⟨c, d, -, rfl⟩ := execRdr_onlyResponds h
    exact ⟨c, d, h⟩
  | _ => cases ho

/-- The word of an observing command only responds, also where RDR carries a reserved selector. -/
theorem accept_of_observes {i : Instr} {s : State} {T : Table} (ho : observes i = true) (hv : s.SVALID = true)
    (hS : Memory.Holds s.S T) : ∃ (c : Code) (d : Half), accept (encode i) s = .next (respond c d s) := by
  by_cases hwf : i.wellFormed = true
  · rw [accept_of_decode (decode_encode hwf)]
    exact exec_of_observes ho hv hS
  · exact ⟨.illegal, 0, accept_of_illegalWord (illegalWord_encode hwf) s⟩

end Sys2Proof.Machine
end

section
/-! A message on the engine (R122, R127): PRGA commands with NOP, SRD and RDR commands between them. -/

namespace Sys2Proof.Machine

/-- A command that may stand in a message: PRGA, or one that only observes (R122). -/
def InMessage (i : Instr) : Prop := observes i = true ∨ ∃ d, i = .prga d

theorem dataByte_of_observes {i : Instr} (h : observes i = true) : dataByte i = none := by
  cases i with
  | nop | srd _ | rdr _ => rfl
  | _ => cases h

theorem messageData_append (is js : List Instr) : messageData (is ++ js) = messageData is ++ messageData js :=
  List.filterMap_append

theorem messageOutputs_append {is : List Instr} {rs : List Word} (h : rs.length = is.length) (js : List Instr)
    (ws : List Word) : messageOutputs (is ++ js) (rs ++ ws) = messageOutputs is rs ++ messageOutputs js ws := by
  rw [messageOutputs, List.zip_append h.symm, List.filterMap_append]
  rfl

/-- The memory `m` and the responses `rs` are what the source's loop leaves and outputs on the message of `is`, from the
table `T` and the indices `i`, `j`. -/
structure Answered (T : Table) (i j : Byte) (is : List Instr) (m : Memory) (rs : List Word) : Prop where
  length : rs.length = is.length
  outputs : messageOutputs is rs = (sourcePrga T i j (messageData is)).1
  table : Memory.Holds m (sourcePrga T i j (messageData is)).2.1

theorem Answered.append {T : Table} {i j : Byte} {is js : List Instr} {m m' : Memory} {rs ws : List Word}
    (h : Answered T i j is m rs)
    (h' : Answered (sourcePrga T i j (messageData is)).2.1 (sourcePrga T i j (messageData is)).2.2.1
      (sourcePrga T i j (messageData is)).2.2.2 js m' ws) : Answered T i j (is ++ js) m' (rs ++ ws) := by
  constructor
  · rw [List.length_append, List.length_append, h.length, h'.length]
  · rw [messageOutputs_append h.length, h.outputs, h'.outputs, messageData_append, sourcePrga_append]
  · rw [messageData_append, sourcePrga_append]
    exact h'.table

/-- The state `s` after a message: the memory `m`, the indices the source's loop leaves, and the responses received. -/
def afterMessage (s : State) (T : Table) (is : List Instr) (m : Memory) (rs : List Word) (moves : List Move) : State :=
  { s with S := m, I := (sourcePrga T s.I s.J (messageData is)).2.2.1,
           J := (sourcePrga T s.I s.J (messageData is)).2.2.2, agenda := moves, received := s.received ++ rs }

theorem afterMessage_append (s : State) (T : Table) (is js : List Instr) (m m' : Memory) (rs ws : List Word)
    (g g' : List Move) :
    afterMessage (afterMessage s T is m rs g) (sourcePrga T s.I s.J (messageData is)).2.1 js m' ws g' =
      afterMessage s T (is ++ js) m' (rs ++ ws) g' := by
  simp [afterMessage, messageData_append, sourcePrga_append]

/-- One command of a message and the consumption of its response: PRGA takes a round, and the others only respond. -/
theorem run_messageCommand {s : State} {T : Table} {i : Instr} {moves : List Move} (hp : s.PHASE = .idle)
    (hr : s.RESP = none) (hv : s.SVALID = true) (hS : Memory.Holds s.S T) (hi : InMessage i)
    (ha : s.agenda = hostMoves [i] ++ moves) :
    ∃ (m : Memory) (w : Word), Answered T s.I s.J [i] m [w] ∧
      Sys2Proof.core.run 2 s = .next (afterMessage s T [i] m [w] moves) := by
  rcases hi with ho | ⟨d, rfl⟩
  · obtain ⟨c, x, he⟩ := accept_of_observes (s := { s with agenda := .consume :: moves }) ho hv hS
    have hdata : messageData [i] = [] := by simp [messageData, dataByte_of_observes ho]
    refine ⟨s.S, responseWord c x, ⟨rfl, ?_, ?_⟩, ?_⟩
    · rw [hdata]
      simp [messageOutputs, dataByte_of_observes ho, sourcePrga]
    · rw [hdata]
      exact hS
    · rw [run_issue_consume hp hr ha he rfl (not_reservedCode c x) rfl, afterMessage, hdata, ← hr]
      rfl
  · obtain ⟨m, hm, hexec⟩ := exec_prga_of_holds (s := { s with agenda := .consume :: moves }) hv hS
    refine ⟨m, responseWord .ok (zext16 (d ^^^ prgaByte T s.I s.J)), ⟨rfl, ?_, hm⟩, ?_⟩
    · exact congrArg (fun b => [b]) (outputByte_responseWord _)
    · rw [run_command hp hr ha rfl (hexec d), afterMessage, ← hr]
      rfl

/-- A message runs command by command, two steps each. -/
theorem run_message {is : List Instr} {s : State} {T : Table} {moves : List Move} (hp : s.PHASE = .idle)
    (hr : s.RESP = none) (hv : s.SVALID = true) (hS : Memory.Holds s.S T) (his : ∀ i ∈ is, InMessage i)
    (ha : s.agenda = hostMoves is ++ moves) :
    ∃ (m : Memory) (rs : List Word), Answered T s.I s.J is m rs ∧
      Sys2Proof.core.run (2 * is.length) s = .next (afterMessage s T is m rs moves) := by
  induction is generalizing s T with
  | nil =>
    obtain rfl : s.agenda = moves := ha
    exact ⟨s.S, [], ⟨rfl, rfl, hS⟩, by simp [afterMessage, messageData, sourcePrga]⟩
  | cons i is ih =>
    obtain ⟨hi, his⟩ := List.forall_mem_cons.1 his
    rw [hostMoves_cons, List.append_assoc] at ha
    obtain ⟨m, w, h1, run1⟩ := run_messageCommand hp hr hv hS hi ha
    obtain ⟨m', rs, h2, run2⟩ := ih (s := afterMessage s T [i] m [w] (hostMoves is ++ moves)) hp hr hv h1.table his rfl
    refine ⟨m', w :: rs, h1.append h2, ?_⟩
    rw [afterMessage_append] at run2
    rw [List.length_cons, Nat.mul_succ, Nat.add_comm]
    exact (run_add run1 _).trans run2

/-- Settles O38: what the run of a message leaves, read off it. -/
theorem keystreamAgreesWithTheSource : Obligations.KeystreamAgreesWithTheSource := by
  intro s T is rest hp hr hv hS his ha
  obtain ⟨m, rs, h, run⟩ := run_message hp hr hv hS his ha
  exact ⟨_, rs, run, h.length, h.outputs, h.table, rfl⟩

end Sys2Proof.Machine
end

section
/-! The cipher's command sequence with a nonempty key (R85, R150), and its second run over its own output (R126). -/

namespace Sys2Proof.Machine

theorem messageData_xorSequence (msg : List Byte) : messageData (xorSequence msg) = msg := by
  simp [messageData, xorSequence, List.filterMap_map, Function.comp_def, dataByte]

/-- Of a message without observing commands every response carries an output byte (R85). -/
theorem messageOutputs_xorSequence {msg : List Byte} {rs : List Word} (h : rs.length = msg.length) :
    messageOutputs (xorSequence msg) rs = rs.map fun w => w.extractLsb' 0 8 := by
  induction msg generalizing rs with
  | nil =>
    obtain rfl := List.length_eq_zero_iff.1 h
    rfl
  | cons d ds ih =>
    obtain ⟨w, ws, rfl⟩ := List.exists_cons_of_length_eq_add_one h
    exact congrArg _ (ih (Nat.succ.inj h))

theorem lastBytes_of_received {s : State} {us ws : List Word} {n : Nat} (h : s.received = us ++ ws) (hn : ws.length = n) :
    lastBytes n s = ws.map fun w => w.extractLsb' 0 8 := by
  rw [lastBytes, h, List.length_append, hn, Nat.add_sub_cancel, List.drop_left]

/-- The bytes of a key that the buffer does not hold do not matter to its schedule (R101, R104 item 1). -/
theorem sourceKsa_take (key : List Byte) : sourceKsa (key.take 256) = sourceKsa key := by
  rcases Nat.lt_or_ge 256 key.length with hlt | hle
  · exact (keyLengthLawsOfTheSchedule.1 key hlt).symm
  · rw [List.take_of_length_le hle]

/-- `INIT key` leaves the source's `ksa(key)` in an idle engine with `I = J = 0`, whatever the engine held (R85, R107). -/
theorem run_initSequence {s : State} {key : List Byte} {moves : List Move} (hp : s.PHASE = .idle) (hr : s.RESP = none)
    (hn : key ≠ []) (ha : s.agenda = hostMoves (initSequence key) ++ moves) :
    ∃ (t : State) (T : Table), Sys2Proof.core.run (2 * (1 + key.length) + (2 + 256)) s = .next t ∧
      sourceKsa key = some T ∧ Memory.Holds t.S T ∧ t.I = 0 ∧ t.J = 0 ∧
      t.PHASE = .idle ∧ t.RESP = none ∧ t.SVALID = true ∧ t.agenda = moves := by
  rw [initSequence, hostMoves_append, List.append_assoc] at ha
  obtain ⟨K, n, hK, load⟩ := run_keySequence key hp hr ha
  have hlen : (key.take 256).length = min key.length 256 := by rw [List.length_take, Nat.min_comm]
  have hheld : ∀ k < (key.take 256).length, Memory.read K (BitVec.ofNat 8 k) = (key.take 256)[k]? := by
    intro k hk
    rw [hlen] at hk
    rw [hK.held k hk, List.getElem?_take_of_lt (by omega)]
  obtain ⟨t, T, ksa, hT, hS, ht⟩ := keyScheduleAgreesWithTheSource (keyLoaded s K n key.length (hostMoves [.ksa] ++ moves))
    (key.take 256) moves hp hr (by simpa using hn) (hK.length.trans hlen.symm) (by omega) hheld rfl
  refine ⟨t, T, (run_add load _).trans ksa, (sourceKsa_take key).symm.trans hT, hS, ?_⟩
  rw [ht]
  exact ⟨rfl, rfl, rfl, rfl, rfl, rfl⟩

/-- `CIPHER key, msg` ends in an idle engine with the source's `cipher(key, msg)` in its last responses (R85, R150). -/
theorem run_cipherSequence {s : State} {key msg : List Byte} {moves : List Move} (hp : s.PHASE = .idle)
    (hr : s.RESP = none) (hn : key ≠ []) (ha : s.agenda = hostMoves (cipherSequence key msg) ++ moves) :
    ∃ t : State, Sys2Proof.core.run (cipherSteps key msg) s = .next t ∧
      sourceCipher key msg = some (lastBytes msg.length t) ∧
      t.PHASE = .idle ∧ t.RESP = none ∧ t.SVALID = true ∧ t.agenda = moves := by
  rw [cipherSequence, hostMoves_append, List.append_assoc] at ha
  obtain ⟨u, T, init, hT, hS, hI, hJ, hpu, hru, hvu, hau⟩ := run_initSequence hp hr hn ha
  have hprga : ∀ i ∈ xorSequence msg, InMessage i := by
    intro i hi
    obtain ⟨d, -, rfl⟩ := List.mem_map.1 hi
    exact .inr ⟨d, rfl⟩
  obtain ⟨m, rs, h, xor⟩ := run_message hpu hru hvu hS hprga hau
  have hlen : (xorSequence msg).length = msg.length := List.length_map _
  have hout := h.outputs
  rw [messageOutputs_xorSequence (h.length.trans hlen), messageData_xorSequence, hI, hJ] at hout
  rw [hlen] at xor
  refine ⟨_, (run_add init _).trans xor, ?_, hpu, hru, hvu, rfl⟩
  rw [lastBytes_of_received rfl (h.length.trans hlen), hout, sourceCipher, hT, Option.map_some]

/-- Settles O43: both runs compute the source's cipher, which is its own inverse. -/
theorem cipherTwiceRecoversTheMessage : Obligations.CipherTwiceRecoversTheMessage := by
  intro s key msg rest hn hp hr ha
  obtain ⟨t, run, hout, -⟩ := run_cipherSequence hp hr hn ha
  refine ⟨t, run, fun s' rest' hp' hr' ha' => ?_⟩
  obtain ⟨t', run', hmsg, -⟩ := run_cipherSequence hp' hr' hn ha'
  have hlen := length_of_sourceCipher hout
  rw [cipherSteps, hlen] at run'
  rw [sourceCipher_of_sourceCipher hout, hlen] at hmsg
  exact ⟨t', run', (Option.some.inj hmsg).symm⟩

end Sys2Proof.Machine
end

/-! ## Family 42_control: NOP, SRD, RDR and SRST, and the cipher facade -/

section
/-! The four commands of control and observation (R140 to R143). -/

namespace Sys2Proof.Machine

/-- Settles O17. -/
theorem nopOnlyResponds : Obligations.NopOnlyResponds :=
  ⟨rfl, fun _ => rfl, fun _ _ _ ho hop h => step_of_illegalWord ho (illegalWord_of_unused (.inl hop) h)⟩

theorem exec_srd_not_ready {s : State} (hv : s.SVALID = false) (a : Byte) :
    exec (.srd a) s = .next { s with RESP := some 0x00020000 } := by
  rw [exec, execSrd, if_neg (by simp [hv])]
  rfl

/-- With a valid state SRD returns the byte its cell holds (R141). -/
theorem exec_srd_of_read {s : State} {a v : Byte} (hv : s.SVALID = true) (hr : Memory.read s.S a = some v) :
    exec (.srd a) s = .next { s with RESP := some (v.setWidth 32) } := by
  rw [exec, execSrd, if_pos hv, fetchS_of_read _ hr, ← responseWord_ok_byte]
  rfl

/-- Different bytes give different responses (R76). -/
theorem setWidth_byte_injective : Function.Injective (BitVec.setWidth 32 : Byte → Word) := by
  intro u v h
  rw [← outputByte_responseWord u, ← outputByte_responseWord v, responseWord_ok_byte, responseWord_ok_byte, h]

/-- With a valid state the response of SRD tells which byte the cell holds (R141). -/
theorem exec_srd_returns_iff {s : State} {a v : Byte} {T : Table} (hv : s.SVALID = true) (hS : Memory.Holds s.S T) :
    exec (.srd a) s = .next { s with RESP := some (v.setWidth 32) } ↔ T a = v := by
  rw [exec_srd_of_read hv (hS a)]
  constructor
  · intro h
    exact setWidth_byte_injective (Option.some.inj (congrArg State.RESP (Host.Outcome.next.inj h)))
  · rintro rfl
    rfl

/-- R22: a permutation of the bytes is a bijective table of the source. -/
theorem Memory.IsPermutation.exists_bijective {m : Memory} (h : Memory.IsPermutation m) :
    ∃ T : Table, Memory.Holds m T ∧ Function.Bijective T := by
  obtain ⟨hread, hinj⟩ := h
  choose T hT using hread
  refine ⟨T, hT, Finite.injective_iff_bijective.1 fun a b hab => ?_⟩
  exact hinj a b (T b) (hab ▸ hT a) (hT b)

/-- Settles O23: the table of a valid state is a bijection, so each byte is the response for one cell. -/
theorem srdReadsTheEntry : Obligations.SrdReadsTheEntry := by
  refine ⟨fun a => encode_eq_or (.srd a), fun s a hv => exec_srd_not_ready hv a, fun s a v => exec_srd_of_read,
    fun s hi hv v => ?_, fun s w rest ho _ hr => step_of_illegalWord ho (.inr (.inl hr))⟩
  obtain ⟨T, hS, hT⟩ := (hi.svalid_permutation hv).exists_bijective
  simpa only [exec_srd_returns_iff hv hS] using hT.existsUnique v

/-- A reserved selector names no register (R35). -/
theorem registerValue_of_reserved {sel : Byte} (h : 4 ≤ sel.toNat) (s : State) : registerValue sel s = none := by
  have hne : ∀ k : Byte, k.toNat < 4 → sel ≠ k := fun k hk e => by
    rw [e] at h
    omega
  rw [registerValue, if_neg (hne 0#8 (by decide)), if_neg (hne 1#8 (by decide)), if_neg (hne 2#8 (by decide)),
    if_neg (hne 3#8 (by decide))]

/-- The response that carries `STATUS`: `SVALID` in bit 0 (R35). -/
theorem responseWord_statusWord (s : State) :
    responseWord .ok (statusWord s) = if s.SVALID then 0x00000001 else 0x00000000 := by
  rw [statusWord]
  cases s.SVALID <;> rfl

/-- Settles O24: a selector each, then the reserved ones. -/
theorem rdrReadsTheRegister : Obligations.RdrReadsTheRegister := by
  refine ⟨fun sel => encode_eq_or (.rdr sel), fun s => ⟨?_, ?_, ?_, ?_⟩, fun s sel h => ?_, fun s w rest ho hop h => ?_⟩
  · rw [← responseWord_ok_byte]
    rfl
  · rw [← responseWord_ok_byte]
    rfl
  · rw [← responseWord_ok_klen]
    rfl
  · rw [← responseWord_statusWord]
    rfl
  · rw [exec, execRdr, registerValue_of_reserved h]
    rfl
  · exact step_of_illegalWord ho (.inr (h.imp_right fun hsel => .inr ⟨hop, hsel⟩))

/-- Settles O25: after SRST there is no valid state, so SRD and PRGA respond `NOT_READY`. -/
theorem srstLeavesTheResetState : Obligations.SrstLeavesTheResetState := by
  refine ⟨rfl, fun s => ⟨_, rfl, rfl, rfl, rfl, rfl, rfl, rfl, rfl, rfl, rfl, fun b => ⟨?_, ?_⟩⟩,
    ⟨rfl, rfl, rfl, rfl, rfl, rfl, rfl⟩, fun s w rest ho hop h => ?_⟩
  · exact exec_srd_not_ready rfl b
  · exact execPrga_next.2 (.inl ⟨rfl, rfl⟩)
  · exact step_of_illegalWord ho (illegalWord_of_unused (.inr (.inr (.inr hop))) h)

end Sys2Proof.Machine
end

section
/-! The facade's command sequence, and how the runs of an engine are runs of a facade call (R150). -/

namespace Sys2Proof.Machine

/-- Settles O39. -/
theorem facadeComputesTheSourceCipher : Obligations.FacadeComputesTheSourceCipher :=
  fun _ _ _ _ hp hr hn ha => run_cipherSequence hp hr hn ha

@[simp] theorem length_hostMoves (is : List Instr) : (hostMoves is).length = 2 * is.length := by
  induction is with
  | nil => rfl
  | cons i is ih =>
    rw [hostMoves_cons, List.length_append, ih, List.length_cons, Nat.mul_succ, Nat.add_comm]
    rfl

/-- A step takes at most one of the host's moves. -/
theorem length_agenda_le_of_step {s t : State} (h : step s = .next t) : s.agenda.length ≤ t.agenda.length + 1 := by
  rw [step_eq] at h
  split at h
  · rw [engineStep_agenda h]
    exact Nat.le_succ _
  · rename_i m rest ha
    rw [clockEdge_agenda h]
    split
    · exact Nat.le_succ _
    · exact Nat.le_of_eq (congrArg List.length ha)

/-- A run of no more steps than the host has moves is a run of the facade call: the host cannot be done before its end. -/
theorem facadeRun_of_run_le {n : Nat} {f : Facade} {t : State} (h : Sys2Proof.core.run n f.engine = .next t)
    (hn : n ≤ f.engine.agenda.length) : facadeRun n f = .next { f with engine := t } := by
  induction n generalizing f with
  | zero => exact congrArg (fun u => Host.Outcome.next { f with engine := u }) (Host.Outcome.next.inj h)
  | succ n ih =>
    obtain ⟨u, hs, h⟩ := run_succ_next.1 h
    have hne : f.engine.agenda ≠ [] := List.length_pos_iff.1 (by omega)
    have hlen := length_agenda_le_of_step hs
    exact (facadeRun_of_engine_step hne hs n).trans (ih (f := { f with engine := u }) h (by simp only; omega))

/-- With no move left a step of a facade call is the host's decision. -/
theorem facadeRun_of_done {f : Facade} (h : f.engine.agenda = []) (n : Nat) :
    facadeRun (n + 1) f = facadeRun n (facadeDecide f) :=
  facadeRun_of_step (facadeStep_next.2 (.inl ⟨h, rfl⟩)) n

/-- The host looks at the response it received last (R150). -/
theorem keyRejected_of_received {s : State} {us : List Word} {w : Word} (h : s.received = us ++ [w]) :
    keyRejected s = (codeField w == codeBits .invalidKey) := by
  rw [keyRejected, h, List.getLast?_concat]

theorem facadeDecide_of_rejected {f : Facade} (hs : f.stage = .initialising) (h : keyRejected f.engine = true) :
    facadeDecide f = { f with stage := .reported .invalidKey } := by
  rw [facadeDecide, hs]
  exact if_pos h

theorem facadeDecide_of_accepted {f : Facade} (hs : f.stage = .initialising) (h : keyRejected f.engine = false) :
    facadeDecide f =
      { f with engine := { f.engine with agenda := hostMoves (xorSequence f.message) }, stage := .applying } := by
  rw [facadeDecide, hs]
  exact if_neg (by simp [h])

theorem facadeDecide_of_applied {f : Facade} (hs : f.stage = .applying) :
    facadeDecide f = { f with stage := .reported (.output (lastBytes f.message.length f.engine)) } := by
  rw [facadeDecide, hs]

/-- A call on a host with no move left begins with the moves of `INIT key`. -/
theorem facadeCall_of_no_move {s : State} (ha : s.agenda = []) (key msg : List Byte) :
    facadeCall key msg s = ⟨{ s with agenda := hostMoves (initSequence key) }, msg, .initialising⟩ := by
  rw [facadeCall, ha, List.nil_append]

/-- Settles O42: the four moves of `INIT` on an empty key, the report, and nothing more. -/
theorem facadeHostReportsInvalidKey : Obligations.FacadeHostReportsInvalidKey := by
  intro s msg n hp hr ha
  refine ⟨rfl, ?_⟩
  have run := run_init_empty_key (s := { s with agenda := hostMoves (initSequence []) }) (moves := []) hp hr
    (List.append_nil _).symm
  have init := facadeRun_of_run_le (f := ⟨_, msg, .initialising⟩) run (by simp [initSequence, keySequence])
  rw [facadeCall_of_no_move ha, show 5 + n = 4 + (n + 1) by omega, facadeRun_add init, facadeRun_of_done rfl,
    facadeDecide_of_rejected rfl ((keyRejected_of_received (List.append_cons _ _ _)).trans (by decide)),
    facadeRun_reported rfl rfl, ← ha]
  rfl

end Sys2Proof.Machine
end

section
/-! The facade host with a nonempty key (R150): the key schedule, its response, and then the message. -/

namespace Sys2Proof.Machine

/-- What `INIT` leaves in the engine: idle, with the table `T` valid and both indices at zero (R106, R107). -/
structure State.Initialised (s : State) (T : Table) : Prop where
  phase : s.PHASE = .idle
  svalid : s.SVALID = true
  table : Memory.Holds s.S T
  i_zero : s.I = 0
  j_zero : s.J = 0

/-- A nonempty key once loaded is its first 256 bytes (R101). -/
theorem LoadedKey.holdsKey {K0 K : Memory} {n : Count} {key : List Byte} (h : LoadedKey K0 K n key) (hn : key ≠ []) :
    HoldsKey K n (key.take 256) := by
  have hlen : (key.take 256).length = min key.length 256 := by rw [List.length_take, Nat.min_comm]
  refine ⟨by simpa using hn, h.length.trans hlen.symm, fun k hk => ?_⟩
  rw [hlen] at hk
  rw [h.held k hk, List.getElem?_take_of_lt (by omega)]

/-- KSA and its 256 iterations, up to the response, which the host has not consumed yet (R105, R107). -/
theorem run_ksa_pending {s : State} {key : List Byte} {moves : List Move} (hp : s.PHASE = .idle) (hr : s.RESP = none)
    (hk : HoldsKey s.KEY s.KLEN key) (ha : s.agenda = hostMoves [.ksa] ++ moves) :
    ∃ u : State, Sys2Proof.core.run (256 + 1) s = .next u ∧ u.Initialised (sourceKsaAfter key 256).1 ∧
      u.RESP = some 0x00000000 ∧ u.agenda = .consume :: moves := by
  have haccept : step s = .next (startSchedule { s with agenda := .consume :: moves }) := by
    rw [step_accepts hp hr ha, accept_of_decode (decode_encode (i := .ksa) rfl)]
    exact execKsa_next.2 (.inr ⟨hk.klen_ne_zero, rfl⟩)
  obtain ⟨m, hm, run⟩ := run_schedule (s := startSchedule { s with agenda := .consume :: moves }) ⟨rfl, hr, rfl, hk⟩
  exact ⟨_, (run_of_step haccept 256).trans run, ⟨rfl, rfl, hm, rfl, rfl⟩, rfl, rfl⟩

/-- `INIT key` in a facade call: the key is loaded and scheduled, and the host has the response `{OK, 0}` (R107, R150). -/
theorem facadeRun_initSequence {s : State} {key : List Byte} (msg : List Byte) (hp : s.PHASE = .idle) (hr : s.RESP = none)
    (hn : key ≠ []) (ha : s.agenda = hostMoves (initSequence key)) :
    ∃ (t : State) (T : Table),
      facadeRun (2 * (1 + key.length) + (256 + 2)) ⟨s, msg, .initialising⟩ = .next ⟨t, msg, .initialising⟩ ∧
      sourceKsa key = some T ∧ t.Initialised T ∧ t.RESP = none ∧ t.agenda = [] ∧ keyRejected t = false := by
  rw [initSequence, hostMoves_append] at ha
  obtain ⟨K, n, hK, load⟩ := run_keySequence key hp hr ha
  obtain ⟨u, ksa, hu, hru, hau⟩ := run_ksa_pending (s := keyLoaded s K n key.length (hostMoves [.ksa])) (moves := [])
    hp hr (hK.holdsKey hn) rfl
  have pending := facadeRun_of_run (f := ⟨s, msg, .initialising⟩) ((run_add load _).trans ksa) (by simp [hau])
  have consume := facadeRun_of_engine_step (f := ⟨u, msg, .initialising⟩) (by simp [hau])
    (step_consume hru (by decide) hau) 0
  refine ⟨_, _, (facadeRun_add pending 1).trans consume, ?_, ⟨hu.phase, hu.svalid, hu.table, hu.i_zero, hu.j_zero⟩,
    rfl, rfl, (keyRejected_of_received rfl).trans (by decide)⟩
  rw [← sourceKsa_take, sourceKsa_of_ne_nil (by simpa using hn)]

/-- A message on an initialised engine: the last responses carry the source's output (R85, R127). -/
theorem run_xorSequence {s : State} {T : Table} {msg : List Byte} {moves : List Move} (hs : s.Initialised T)
    (hr : s.RESP = none) (ha : s.agenda = hostMoves (xorSequence msg) ++ moves) :
    ∃ t : State, Sys2Proof.core.run (2 * msg.length) s = .next t ∧
      lastBytes msg.length t = (sourcePrga T 0 0 msg).1 ∧
      t.PHASE = .idle ∧ t.RESP = none ∧ t.SVALID = true ∧ t.agenda = moves := by
  have hprga : ∀ i ∈ xorSequence msg, InMessage i := by
    intro i hi
    obtain ⟨d, -, rfl⟩ := List.mem_map.1 hi
    exact .inr ⟨d, rfl⟩
  obtain ⟨m, rs, h, run⟩ := run_message hs.phase hr hs.svalid hs.table hprga ha
  have hlen : (xorSequence msg).length = msg.length := List.length_map _
  have hrs : rs.length = msg.length := h.length.trans hlen
  have hout := h.outputs
  rw [messageOutputs_xorSequence hrs, messageData_xorSequence, hs.i_zero, hs.j_zero] at hout
  rw [hlen] at run
  exact ⟨_, run, (lastBytes_of_received rfl hrs).trans hout, hs.phase, hr, hs.svalid, rfl⟩

/-- The message in a facade call, its moves being issued, and the report of the output (R85, R150). -/
theorem facadeRun_xorSequence {s : State} {T : Table} {msg : List Byte} (hs : s.Initialised T) (hr : s.RESP = none)
    (ha : s.agenda = hostMoves (xorSequence msg)) :
    ∃ t : State,
      facadeRun (2 * msg.length + 1) ⟨s, msg, .applying⟩ =
        .next ⟨t, msg, .reported (.output (sourcePrga T 0 0 msg).1)⟩ ∧
      t.PHASE = .idle ∧ t.RESP = none ∧ t.SVALID = true ∧ t.agenda = [] := by
  obtain ⟨t, run, hout, hp, hrt, hv, hat⟩ := run_xorSequence hs hr (ha.trans (List.append_nil _).symm)
  have xor := facadeRun_of_run_le (f := ⟨s, msg, .applying⟩) run (by simp [ha, xorSequence])
  refine ⟨t, ?_, hp, hrt, hv, hat⟩
  rw [facadeRun_add xor, facadeRun_of_done hat, facadeDecide_of_applied rfl, hout]
  rfl

/-- Settles O41: `INIT`, the decision to go on, the message, and the report. -/
theorem facadeHostReportsTheSourceCipher : Obligations.FacadeHostReportsTheSourceCipher := by
  intro s key msg hp hr ha hn
  obtain ⟨u, T, init, hT, hu, hru, hau, hok⟩ :=
    facadeRun_initSequence (s := { s with agenda := hostMoves (initSequence key) }) msg hp hr hn rfl
  obtain ⟨t, report, hpt, hrt, hvt, hat⟩ :=
    facadeRun_xorSequence (s := { u with agenda := hostMoves (xorSequence msg) }) (T := T)
      ⟨hu.phase, hu.svalid, hu.table, hu.i_zero, hu.j_zero⟩ hru rfl
  have hsteps : cipherSteps key msg + 2 = 2 * (1 + key.length) + (256 + 2) + (2 * msg.length + 1 + 1) := by
    rw [cipherSteps, Config.ksaIterations]
    omega
  refine ⟨⟨t, msg, .reported (.output (sourcePrga T 0 0 msg).1)⟩, _, ?_, by rw [sourceCipher, hT, Option.map_some], rfl,
    hpt, hrt, hvt, hat⟩
  rw [facadeCall_of_no_move ha, hsteps, facadeRun_add init, facadeRun_of_done hau, facadeDecide_of_accepted rfl hok]
  exact report

end Sys2Proof.Machine
end

/-! ## Family 60_exceptions: illegal words, errors and their codes, and the instances of a platform -/

section
/-! The illegal words are those of R79's four items (R163). -/

namespace Sys2Proof
open Machine

theorem decodeNoOperand_eq_illegal {j : Instr} {imm : Byte} {r : Reject} :
    decodeNoOperand j imm = .illegal r ↔ imm ≠ 0 ∧ .unusedOperand = r := by
  simp [decodeNoOperand, ite_eq_iff]

/-- R79: the decoder rejects a word only for one of the four items; one case for each branch that can reject. -/
theorem illegalWord_of_decode {w : Word} {r : Reject} (h : decode w = .illegal r) : IllegalWord w := by
  simp only [decode, ite_eq_iff, decodeNoOperand_eq_illegal, reduceCtorEq, and_false, false_or] at h
  obtain ⟨h8, -⟩ | ⟨hlt, ⟨hr, -⟩ | ⟨-, ⟨h0, hi, -⟩ | ⟨n0, ⟨h1, hi, -⟩ | ⟨n1, n2, ⟨h3, hi, -⟩ | ⟨n3, n4, n5,
    ⟨h6, hsel, -⟩ | ⟨n6, hi, -⟩⟩⟩⟩⟩⟩ := h
  · exact .inl h8
  · exact .inr (.inl hr)
  · exact illegalWord_of_unused (.inl h0) (.inr hi)
  · exact illegalWord_of_unused (.inr (.inl h1)) (.inr hi)
  · exact illegalWord_of_unused (.inr (.inr (.inl h3))) (.inr hi)
  · exact .inr (.inr (.inr ⟨h6, BitVec.not_lt.1 hsel⟩))
  · have h7 := opcode_seven_of_no_other hlt n0 n1 n2 n3 n4 n5 n6
    exact illegalWord_of_unused (.inr (.inr (.inr h7))) (.inr hi)

theorem decode_illegal_iff_illegalWord {w : Word} : (∃ r, decode w = .illegal r) ↔ IllegalWord w :=
  ⟨fun ⟨_, h⟩ => illegalWord_of_decode h, fun h => decode_illegal_iff.2 (decode_ne_of_illegalWord h)⟩

theorem exists_command_of_legal {w : Word} (h : ¬ IllegalWord w) : ∃ i, decode w = .command i := by
  by_contra hn
  exact h (decode_illegal_iff_illegalWord.1 (decode_illegal_iff.2 fun i hi => hn ⟨i, hi⟩))

/-- Settles O5: the four items are what the decoder rejects, and a rejected word only responds. -/
theorem illegalWordsRespondIllegal : Obligations.IllegalWordsRespondIllegal :=
  ⟨fun _ => decode_illegal_iff_illegalWord, fun _ _ _ => step_of_illegalWord⟩

end Sys2Proof
end

section
/-! The one error a command may report, and what it does with and without it (R160 to R165). -/

namespace Sys2Proof.Machine

/-- The error a command reports in a state: `ILLEGAL` for a reserved selector, `INVALID_KEY` for KSA without a key,
`NOT_READY` for PRGA and SRD without a valid state (R161 to R165). -/
def errorOf : Instr → State → Option Code
  | .nop, _ => none
  | .kclr, _ => none
  | .kpush _, _ => none
  | .ksa, s => if s.KLEN = 0 then some .invalidKey else none
  | .prga _, s => if s.SVALID then none else some .notReady
  | .srd _, s => if s.SVALID then none else some .notReady
  | .rdr sel, _ => if sel < 4#8 then none else some .illegal
  | .srst, _ => none

theorem clearSvalid_of_invalid {s : State} (h : s.SVALID = false) : clearSvalid s = s := by
  rw [clearSvalid, ← h]

/-- A selector below 4 names a register (R35). -/
theorem registerValue_of_selector {sel : Byte} (h : sel < 4#8) (s : State) : ∃ v, registerValue sel s = some v := by
  have hsel : sel ∈ selectors := mem_selectors.2 h
  simp only [selectors, List.mem_cons, List.not_mem_nil, or_false] at hsel
  rcases hsel with rfl | rfl | rfl | rfl <;> exact ⟨_, rfl⟩

/-- R160: a command with an error to report only responds; KSA without a key finds `SVALID = 0` already (R32 item 6). -/
theorem exec_of_error {i : Instr} {s : State} {c : Code} (h : s.Inv) (he : errorOf i s = some c) :
    exec i s = .next (respond c 0 s) := by
  cases i with
  | ksa =>
    obtain ⟨hk, rfl⟩ : s.KLEN = 0 ∧ .invalidKey = c := by simpa [errorOf] using he
    exact execKsa_next.2 (.inl ⟨hk, by rw [clearSvalid_of_invalid (h.empty_invalid hk)]⟩)
  | prga d =>
    obtain ⟨hv, rfl⟩ : s.SVALID = false ∧ .notReady = c := by simpa [errorOf] using he
    exact execPrga_next.2 (.inl ⟨hv, rfl⟩)
  | srd a =>
    obtain ⟨hv, rfl⟩ : s.SVALID = false ∧ .notReady = c := by simpa [errorOf] using he
    exact exec_srd_not_ready hv a
  | rdr sel =>
    obtain ⟨hsel, rfl⟩ : 4#8 ≤ sel ∧ .illegal = c := by simpa [errorOf] using he
    rw [exec, execRdr, registerValue_of_reserved (BitVec.le_def.1 hsel)]
    rfl
  | _ => cases he

/-- R164: a command without an error to report responds `OK`, but KSA, which starts its schedule. -/
theorem exec_of_no_error {i : Instr} {s t : State} (he : errorOf i s = none) (h : exec i s = .next t) :
    (i = .ksa ∧ t = startSchedule s) ∨ ∃ d, t.RESP = some (responseWord .ok d) := by
  cases i with
  | nop => cases h; exact .inr ⟨_, rfl⟩
  | kclr => cases h; exact .inr ⟨_, rfl⟩
  | kpush kb => cases h; exact .inr ⟨_, rfl⟩
  | ksa =>
    have hk : s.KLEN ≠ 0 := by simpa [errorOf] using he
    exact .inl ⟨rfl, ((execKsa_next.1 h).resolve_left fun hz => hk hz.1).2⟩
  | prga d =>
    have hv : s.SVALID = true := by simpa [errorOf] using he
    rcases execPrga_next.1 h with ⟨hn, -⟩ | ⟨-, _, _, _, _, _, _, -, -, -, -, -, -, rfl⟩
    · exact absurd (hv.symm.trans hn) (by decide)
    · exact .inr ⟨_, rfl⟩
  | srd a =>
    have hv : s.SVALID = true := by simpa [errorOf] using he
    obtain ⟨v, -, ht⟩ := fetchS_next.1 ((if_pos hv).symm.trans h)
    cases ht
    exact .inr ⟨_, rfl⟩
  | rdr sel =>
    have hsel : sel < 4#8 := by simpa [errorOf] using he
    obtain ⟨v, hv⟩ := registerValue_of_selector hsel s
    rw [exec, execRdr, hv] at h
    cases h
    exact .inr ⟨_, rfl⟩
  | srst => cases h; exact .inr ⟨_, rfl⟩

/-- A decoded command other than KSA has no error to report where it needs no valid state or finds one. -/
theorem errorOf_eq_none {i : Instr} {s : State} (hwf : i.wellFormed = true) (hk : i ≠ .ksa)
    (hv : s.SVALID = true ∨ ∀ b : Byte, i ≠ .prga b ∧ i ≠ .srd b) : errorOf i s = none := by
  cases i with
  | ksa => exact absurd rfl hk
  | prga d => exact if_pos (hv.resolve_right fun h => (h d).1 rfl)
  | srd a => exact if_pos (hv.resolve_right fun h => (h a).2 rfl)
  | rdr sel => exact if_pos (of_decide_eq_true hwf)
  | _ => rfl

/-- Settles O27: a nonzero code is that of the one error, and consuming the response restores the state. -/
theorem errorsChangeNothingButTheResponse : Obligations.ErrorsChangeNothingButTheResponse := by
  intro i s t u hinv hr h hu hc
  cases he : errorOf i s with
  | some c =>
    obtain rfl := Host.Outcome.next.inj (h.symm.trans (exec_of_error hinv he))
    obtain rfl := Option.some.inj hu
    have restored : ({ respond c 0 s with RESP := none } : State) = s := by rw [respond, ← hr]
    exact ⟨rfl, rdataField_responseWord c 0, restored.symm ▸ h⟩
  | none =>
    rcases exec_of_no_error he h with ⟨-, rfl⟩ | ⟨d, hd⟩
    · exact absurd (hu.symm.trans hr) (Option.some_ne_none u)
    · obtain rfl := Option.some.inj (hu.symm.trans hd)
      exact absurd (codeField_responseWord .ok d) hc

theorem resp_of_error {i : Instr} {s t : State} {c : Code} (h : s.Inv) (he : errorOf i s = some c)
    (hx : exec i s = .next t) : t.RESP = some (responseWord c 0) := by
  obtain rfl := Host.Outcome.next.inj (hx.symm.trans (exec_of_error h he))
  rfl

/-- Settles O26: the step runs the decoded command, whose one error, if it has one, is its response. The response words
stated are those of `ILLEGAL`, `INVALID_KEY` and `NOT_READY` by evaluation. -/
theorem eachCommandReportsItsOneCode : Obligations.EachCommandReportsItsOneCode := by
  intro s w rest h ho
  obtain ⟨t, ht⟩ := step_answers h
  have hinv := inv_agenda h rest
  have runs {i : Instr} (hi : decode w = .command i) : exec i { s with agenda := rest } = .next t :=
    (stepRunsTheDecodedCommand.1 s w rest i ho hi).2.symm.trans ht
  refine ⟨t, ht, fun hw => ?_, fun hd hk => ?_, fun hd hk => ?_, fun b hd hv => ?_, fun hw hd hv => ?_⟩
  · obtain rfl := Host.Outcome.next.inj (ht.symm.trans (step_of_illegalWord ho hw))
    rfl
  · exact resp_of_error (i := .ksa) hinv (if_pos hk) (runs hd)
  · obtain ⟨-, hr, -⟩ := ho
    obtain ⟨-, rfl⟩ := (execKsa_next.1 (runs hd)).resolve_left fun hz => hk hz.1
    exact ⟨hr, rfl⟩
  · have hn : ¬ s.SVALID = true := by simp [hv]
    rcases hd with hd | hd
    · exact resp_of_error (i := .prga b) hinv (if_neg hn) (runs hd)
    · exact resp_of_error (i := .srd b) hinv (if_neg hn) (runs hd)
  · obtain ⟨i, hi⟩ := exists_command_of_legal hw
    simp only [hi, ne_eq, Decoded.command.injEq] at hd hv
    have he := errorOf_eq_none (s := { s with agenda := rest }) (wellFormed_of_decode hi) hd hv
    obtain ⟨d, hok⟩ := (exec_of_no_error he (runs hi)).resolve_left fun hk => hd hk.1
    exact ⟨_, hok, codeField_responseWord .ok d⟩

end Sys2Proof.Machine
end

section
/-! The instances of a platform (R171). -/

namespace Sys2Proof.Machine

/-- A step of engine `k` steps its own state, or does nothing where there is no such engine. -/
theorem platformStep_next {k : Nat} {p q : Platform} :
    platformStep k p = .next q ↔
      (p[k]? = none ∧ q = p) ∨ ∃ s t, p[k]? = some s ∧ step s = .next t ∧ q = p.set k t := by
  unfold platformStep
  cases p[k]? with
  | none => simp [eq_comm]
  | some s => cases hs : step s <;> simp [hs, eq_comm]

theorem platformStep_keeps_others {k : Nat} {p q : Platform} (h : platformStep k p = .next q) :
    q.length = p.length ∧ ∀ j : Nat, j ≠ k → q[j]? = p[j]? := by
  rcases platformStep_next.1 h with ⟨-, rfl⟩ | ⟨s, t, -, -, rfl⟩
  · exact ⟨rfl, fun _ _ => rfl⟩
  · exact ⟨List.length_set, fun j hj => List.getElem?_set_ne hj.symm⟩

/-- What a step of engine `k` leaves at its position is the step of what stood there, and of nothing else. -/
theorem platformStep_own_state {k : Nat} {p q : Platform} (h : platformStep k p = .next q) :
    q[k]?.map .next = p[k]?.map step := by
  rcases platformStep_next.1 h with ⟨hp, rfl⟩ | ⟨s, t, hp, hs, rfl⟩
  · rw [hp]
    rfl
  · obtain ⟨hk, -⟩ := List.getElem?_eq_some_iff.1 hp
    rw [List.getElem?_set_self hk, hp, Option.map_some, Option.map_some, hs]

/-- Settles O33: the frame of the other instances, and the own state of the one that steps. -/
theorem instancesShareNothing : Obligations.InstancesShareNothing := by
  refine ⟨fun k p q => platformStep_keeps_others, fun k p p' q q' hpp h h' => ?_, fun k p s hp hs => ?_⟩
  · apply Option.map_injective (f := (Host.Outcome.next : State → Result)) fun _ _ => Host.Outcome.next.inj
    rw [platformStep_own_state h, platformStep_own_state h', hpp]
  · obtain ⟨t, ht⟩ := step_answers hs
    exact ⟨p.set k t, platformStep_next.2 (.inr ⟨s, t, hp, ht, rfl⟩)⟩

end Sys2Proof.Machine
end

section
/-! The reset edge (R180), and the bound on a key schedule that is left to run (R191). -/

namespace Sys2Proof.Machine

/-- With no move of the host left the engine acts alone (R9). -/
theorem step_of_no_move {s : State} (ha : s.agenda = []) : step s = engineStep s := by
  rw [step_eq, ha]

theorem toNat_kctr_succ {i : Byte} (h : i ≠ 255#8) : (i + 1).toNat = i.toNat + 1 := by
  bv_omega

/-- A schedule that an engine step leaves in progress was in progress before it, one iteration earlier (R106). -/
theorem engineStep_counts {s t : State} (h : engineStep s = .next t) (ht : t.PHASE = .ksa) :
    s.PHASE = .ksa ∧ t.KCTR.toNat = s.KCTR.toNat + 1 := by
  rcases engineStep_cases h with ⟨hp, h⟩ | ⟨hp, h⟩
  · obtain ⟨c, si, kb, sj, -, -, -, -, rfl⟩ := ksaIteration_next.1 h
    have hlast : s.KCTR ≠ 255#8 := by
      intro e
      rw [e, endIteration_last] at ht
      cases ht
    rw [endIteration_of_ne hlast]
    exact ⟨hp, toNat_kctr_succ hlast⟩
  · cases h
    rw [hp] at ht
    cases ht

/-- The engine alone is idle after `n` steps when no schedule is in progress or at most `n` iterations of it are left: each step
takes one of them, and an idle engine stays idle (R191). -/
theorem run_alone_reaches_idle {n : Nat} {s : State} (h : s.Inv) (ha : s.agenda = [])
    (hn : s.PHASE = .ksa → 256 ≤ s.KCTR.toNat + n) : ∃ t, Sys2Proof.core.run n s = .next t ∧ t.PHASE = .idle := by
  induction n generalizing s with
  | zero =>
    cases hp : s.PHASE with
    | idle => exact ⟨s, rfl, hp⟩
    | ksa => exact absurd (hn hp) (Nat.not_le.2 s.KCTR.isLt)
  | succ n ih =>
    obtain ⟨u, hu⟩ := engineStep_answers h
    have hs : step s = .next u := (step_of_no_move ha).trans hu
    have hleft : u.PHASE = .ksa → 256 ≤ u.KCTR.toNat + n := by
      intro hp
      obtain ⟨hp, hk⟩ := engineStep_counts hu hp
      have := hn hp
      omega
    rw [run_of_step hs]
    exact ih (engineStep_keeps_inv h hu) ((engineStep_agenda hu).trans ha) hleft

/-- Settles O16: from any counter at most 256 iterations are left. -/
theorem everyScheduleEndsWithin256Steps : Obligations.EveryScheduleEndsWithin256Steps := by
  intro s h
  obtain ⟨t, run, ht⟩ := run_alone_reaches_idle (inv_agenda h []) rfl fun _ => Nat.le_add_left 256 s.KCTR.toNat
  exact ⟨256, t, le_rfl, run, ht⟩

/-- Settles O12: the edge leaves the reset values, and an idle engine with no move left waits. -/
theorem resetWinsOverEverything : Obligations.ResetWinsOverEverything := by
  intro s p e rest ha hrst
  refine ⟨?_, _, step_of_reset_edge ha hrst, rfl, rfl, rfl, rfl, rfl, rfl, rfl, rfl, rfl, fun hrest => ?_⟩
  · simp [outputs, cmdReady, hrst]
  · rw [step_of_no_move hrest, engineStep_of_idle rfl]

end Sys2Proof.Machine
end
